-- ==== Sys2Proof/Word.lean ====
section
/-!
DEFINITION. The plainest vocabulary: the byte (00_scope.md rule R6, `BYTE_W` = 8), the 32-bit header field, and the four
run kinds of 30_encoding.md rule R87.
-/

namespace Sys2Proof

/-- A byte, 8 bits (20_memory.md R51). -/
abbrev Byte := BitVec 8

/-- A 32-bit unsigned field of the header (30_encoding.md R82). -/
abbrev Word32 := BitVec 32

/-- The kind of a run or record (30_encoding.md R87): `LIT`, `BREP`, `WREP`, `AREP`. -/
inductive Kind where
  | literal
  | byteRepeat
  | wordRepeat
  | alphaRepeat
  deriving DecidableEq, Repr

end Sys2Proof
end

