-- ==== Sys2Proof/Config.lean ====
section
/-!
DEFINITION. What 00_scope.md rule R6 calls the block's parameters and results: the failure kinds (60_exceptions.md R220),
RESULT's type (10_state.md R28), the bound on buffers, the OPEN parameter ERR_CODE and the one free value. The other
constants of R6 stand where they are used: token bits and first-byte widths in Machine/Flags.lean, MAGIC and MAXLEN in
Decode.lean, the classifier's minima, windows and lookbacks in Machine/Classifier.lean.
-/

namespace Sys2Proof

/-- The complete set of failure kinds (60_exceptions.md R220). -/
inductive Failure where
  | unknown
  | lengthError
  | overflow
  | invalidHeader
  | lengthMismatch
  | malformedToken
  | truncatedRecord
  deriving DecidableEq, Repr

/-- The content of RESULT (10_state.md R28): `Ok(count)` or `Fail(K)`. -/
inductive Result where
  | ok (count : Nat)
  | fail (k : Failure)
  deriving DecidableEq, Repr, Inhabited

/-- Every buffer has fewer bytes than this (10_state.md R22, `LEN_W` = 32). -/
def Config.bufferBound : Nat := 2 ^ 32

/-- The OPEN parameter ERR_CODE (60_exceptions.md R235): a negative integer per failure kind, pairwise different. The model
takes it as an argument and assumes nothing else of it (assumption 13). -/
structure Config.ErrCode where
  code : Failure → Int
  injective : ∀ a b, code a = code b → a = b
  negative : ∀ a, code a < 0

/-- The integer the host sees for a RESULT (44_host_interface.md R205). -/
def Config.hostInt (e : Config.ErrCode) : Result → Int
  | .ok count => (count : Int)
  | .fail k => e.code k

/-- FREE VALUE (assumption 3): RESULT between an operation's start and its end, which 10_state.md R34 leaves "unspecified
until DONE". It has no body, so nothing can be proved of its value. -/
opaque Config.unspecifiedResult : Nat → Result

end Sys2Proof
end

