-- ==== Sys2Proof/Machine/ByteOrder.lean ====
section
/-!
DEFINITION. Byte order, decided once: header integers are little-endian (20_memory.md R52, notation of 00_scope.md R7).
-/

namespace Sys2Proof

/-- `le32(b0,b1,b2,b3)` (R7). -/
def le32 (b0 b1 b2 b3 : Byte) : Nat :=
  b0.toNat + 2 ^ 8 * b1.toNat + 2 ^ 16 * b2.toNat + 2 ^ 24 * b3.toNat

/-- `LE32(v)`: the four bytes of `v`, low byte first (R7), for `v < 2^32`. -/
def leBytes (v : Nat) : List Byte :=
  [BitVec.ofNat 8 v, BitVec.ofNat 8 (v >>> 8), BitVec.ofNat 8 (v >>> 16), BitVec.ofNat 8 (v >>> 24)]

/-- The `count` bytes of `w`, low byte first: the opcode table's integer view of a token or header (30_encoding.md R97). -/
def wordBytes : Nat → Nat → List Byte
  | 0, _ => []
  | count + 1, w => BitVec.ofNat 8 w :: wordBytes count (w >>> 8)

/-- `MAGIC` (00_scope.md R6, 30_encoding.md R81). -/
def magic : List Byte := [0x52#8, 0x4C#8, 0x45#8, 0x2E#8]

end Sys2Proof
end

