-- ==== Sys2Proof/Machine/Flags.lean ====
section
/-!
DEFINITION. The block has no condition codes (10_state.md R30); what the spec calls flags are the four token bits. This file
has their named masks (40_token_codec.md R116), the tests of them, the length groups beside them (30_encoding.md R84 to
R86), the kind they name (R87), and the bytes built from them.
-/

namespace Sys2Proof

/-- Bit 7 of every token byte (R116, R86). -/
def isExtendedMask : Byte := 0x80#8
/-- Bit 6 of a first byte (R116, R84, R85). -/
def isRepeatMask : Byte := 0x40#8
/-- Bit 5 of a repeat first byte (R116, R85). -/
def isWordMask : Byte := 0x20#8
/-- Bit 4 of a repeat first byte (R116, R85). -/
def isAlphaMask : Byte := 0x10#8
/-- The 6 length bits of a literal first byte (R116, R84). -/
def litLenMask : Byte := 0x3F#8
/-- The 4 length bits of a repeat first byte (R116, R85). -/
def repLenMask : Byte := 0x0F#8
/-- The 7 length bits of a continuation byte (R116, R86). -/
def contLenMask : Byte := 0x7F#8

/-- `is_extended`: at least one more token byte follows (R86). -/
def isExtended (b : Byte) : Bool := b &&& isExtendedMask != 0
/-- `is_repeat` of a first byte (R85). -/
def isRepeat (b : Byte) : Bool := b &&& isRepeatMask != 0
/-- `is_word` of a repeat first byte (R85). -/
def isWord (b : Byte) : Bool := b &&& isWordMask != 0
/-- `is_alpha` of a repeat first byte (R85). -/
def isAlpha (b : Byte) : Bool := b &&& isAlphaMask != 0

/-- The reserved first bytes, `0x70..0x7F` and `0xF0..0xFF` (R92 (a)). -/
def isReserved (b : Byte) : Bool := isRepeat b && isWord b && isAlpha b

/-- The kind a first byte names (R87); a reserved first byte names none and is tested before this is asked. -/
def firstKind (b : Byte) : Kind :=
  if isRepeat b then
    if isWord b then .wordRepeat else if isAlpha b then .alphaRepeat else .byteRepeat
  else .literal

/-- `g0`, the length group of a first byte (R84, R85). -/
def firstGroup (b : Byte) : Nat :=
  if isRepeat b then (b &&& repLenMask).toNat else (b &&& litLenMask).toNat

/-- `g_j`, the length group of a continuation byte (R86). -/
def contGroup (b : Byte) : Nat := (b &&& contLenMask).toNat

/-- `F`: the length bits of a first byte, `LIT_FIRST_BITS` or `REP_FIRST_BITS` (R6, R110). -/
def Kind.firstBits : Kind → Nat
  | .literal => 6
  | .byteRepeat => 4
  | .wordRepeat => 4
  | .alphaRepeat => 4

/-- `base` of R110: the first byte without `is_extended` and length (R87). -/
def Kind.base : Kind → Nat
  | .literal => 0x00
  | .byteRepeat => 0x40
  | .wordRepeat => 0x60
  | .alphaRepeat => 0x50

/-- The bit `is_extended` at its place, as `pack` ORs it in (R110). -/
def extBit (ext : Bool) : Nat := if ext then 0x80 else 0x00

/-- `t[0]` of R110: flags and the most-significant group `g`. -/
def firstByte (kind : Kind) (ext : Bool) (g : Nat) : Byte :=
  BitVec.ofNat 8 (kind.base ||| extBit ext ||| g)

/-- `t[j]`, `j >= 1`, of R110: the group is the low 7 bits of `v`. -/
def contByte (ext : Bool) (v : Nat) : Byte :=
  BitVec.ofNat 8 (extBit ext ||| (v &&& 0x7F))

end Sys2Proof
end

