-- ==== Sys2Proof/Syntax.lean ====
section
/-!
DEFINITION. The instructions of the block, one constructor per row of spec/opcode_table.json. An instruction is one record
and its encoding is its token (00_scope.md R11, 30_encoding.md R97): the four kinds in their 1- to 4-byte token forms, the
two token patterns of R92 that raise MalformedToken, and the container header.
-/

namespace Sys2Proof

/-- One constructor per row of the opcode table. `n` is the run length the token carries (30_encoding.md R88). -/
inductive Instr where
  /-- `LIT.1` to `LIT.4` (R84): 6, 13, 20, 27 length bits. -/
  | lit1 (n : Nat)
  | lit2 (n : Nat)
  | lit3 (n : Nat)
  | lit4 (n : Nat)
  /-- `BREP.1` to `BREP.4` (R85): 4, 11, 18, 25 length bits. -/
  | brep1 (n : Nat)
  | brep2 (n : Nat)
  | brep3 (n : Nat)
  | brep4 (n : Nat)
  /-- `AREP.1` to `AREP.4` (R85). -/
  | arep1 (n : Nat)
  | arep2 (n : Nat)
  | arep3 (n : Nat)
  | arep4 (n : Nat)
  /-- `WREP.1` to `WREP.4` (R85). -/
  | wrep1 (n : Nat)
  | wrep2 (n : Nat)
  | wrep3 (n : Nat)
  | wrep4 (n : Nat)
  /-- `RESERVED.WA` (R92 (a)): a first byte with `is_repeat`, `is_word`, `is_alpha` all set; `ext` is its bit 7 and `low`
  its bits 3..0, neither of which is tested. -/
  | reservedWA (ext : Bool) (low : BitVec 4)
  /-- `MALFORMED.EXT4` (R92 (b)): four bytes with bit 7 set; the fields are their bits 6..0. -/
  | malformedExt4 (b0 b1 b2 b3 : BitVec 7)
  /-- `HDR` (R80, R81, R82): the 8 header bytes with `total_length` = `t`. -/
  | hdr (t : Word32)
  deriving DecidableEq, Repr

end Sys2Proof
end

