-- ==== Sys2Proof/WellFormed.lean ====
section
/-!
DEFINITION. Which instructions the encoding can hold: a length fits the bits its form carries (30_encoding.md R89), and a
`MALFORMED.EXT4` pattern whose first byte is a reserved one has the name `RESERVED.WA` (assumption 14).
-/

namespace Sys2Proof

/-- The instruction has an encoding: the ranges are the "bits carried" column of 30_encoding.md R89. -/
def Instr.wf : Instr → Bool
  | .lit1 n => decide (n < 2 ^ 6)
  | .lit2 n => decide (n < 2 ^ 13)
  | .lit3 n => decide (n < 2 ^ 20)
  | .lit4 n => decide (n < 2 ^ 27)
  | .brep1 n => decide (n < 2 ^ 4)
  | .brep2 n => decide (n < 2 ^ 11)
  | .brep3 n => decide (n < 2 ^ 18)
  | .brep4 n => decide (n < 2 ^ 25)
  | .arep1 n => decide (n < 2 ^ 4)
  | .arep2 n => decide (n < 2 ^ 11)
  | .arep3 n => decide (n < 2 ^ 18)
  | .arep4 n => decide (n < 2 ^ 25)
  | .wrep1 n => decide (n < 2 ^ 4)
  | .wrep2 n => decide (n < 2 ^ 11)
  | .wrep3 n => decide (n < 2 ^ 18)
  | .wrep4 n => decide (n < 2 ^ 25)
  | .reservedWA _ _ => true
  | .malformedExt4 b0 _ _ _ => decide (b0 &&& 0x70#7 ≠ 0x70#7)
  | .hdr _ => true

end Sys2Proof
end

