-- ==== Sys2Proof/Decode.lean ====
section
/-!
DEFINITION. TokenCodec (40_token_codec.md) and the decoder and encoder over the rows of spec/opcode_table.json. `unpack` and
`pack` are R111 and R110 as the spec writes them; `decode` names the row a byte sequence begins with, in one of the two places
an instruction can stand (the header at index 0, a record after it).
-/

namespace Sys2Proof

/-- Why `unpack` raises MalformedToken (R111, R226): the three cases, one failure kind. -/
inductive TokenError where
  /-- A first byte with bits 6, 5, 4 all set (R92 (a)). -/
  | reservedFlags
  /-- The fourth byte asks for a fifth (R92 (b)). -/
  | fifthByte
  /-- A token byte would lie beyond the container (R92 (c)). -/
  | leavesContainer
  deriving DecidableEq, Repr

/-- `(kind, length, k)` of R111: `size` is `k`, the token's byte count. -/
structure Token where
  kind : Kind
  length : Nat
  size : Nat
  deriving DecidableEq, Repr

/-- The loop of R111 after a byte `b` has been read: `more` is how many further bytes the format allows, `k` how many token
bytes have been read, `rest` the bytes of the container after `b`. -/
def unpackRest (kind : Kind) : Nat → Nat → Nat → Byte → List Byte → Except TokenError Token
  | more, len, k, b, rest =>
    if isExtended b then
      match more, rest with
      | 0, _ => .error .fifthByte
      | _ + 1, [] => .error .leavesContainer
      | more + 1, c :: cs => unpackRest kind more ((len <<< 7) ||| contGroup c) (k + 1) c cs
    else .ok ⟨kind, len, k⟩

/-- `unpack` (R111) on the bytes from `p` to the container's end. R111 asks for `p < IN_LEN`; with no byte at all the token
leaves the container. -/
def unpack : List Byte → Except TokenError Token
  | [] => .error .leavesContainer
  | b :: rest =>
    if isReserved b then .error .reservedFlags
    else unpackRest (firstKind b) 3 (firstGroup b) 1 b rest

/-- `MAXLEN(kind)` (R90): 27 bits for `LIT`, 25 for the repeat kinds, whatever `CFG.alpha` is (R96). -/
def Kind.maxLen (kind : Kind) : Nat := 2 ^ (kind.firstBits + 21) - 1

/-- The token of `k` bytes for `length` (R110's two assignments, for any `k` the length fits in: `.k` of R95). -/
def tokenBytes (kind : Kind) (k length : Nat) : List Byte :=
  firstByte kind (decide (1 < k)) (length >>> (7 * (k - 1))) ::
    (List.range' 1 (k - 1)).map fun j => contByte (decide (j < k - 1)) (length >>> (7 * (k - 1 - j)))

/-- `ntok(kind, length)` (R89): the least `k` in 1..4 with `length < 2^(F + 7*(k-1))`. -/
def ntok (kind : Kind) (length : Nat) : Nat :=
  if length < 2 ^ kind.firstBits then 1
  else if length < 2 ^ (kind.firstBits + 7) then 2
  else if length < 2 ^ (kind.firstBits + 14) then 3
  else 4

/-- `pack` (R110): the canonical token, or `Overflow`. -/
def pack (kind : Kind) (length : Nat) : Except Failure (List Byte) :=
  if kind.maxLen < length then .error .overflow
  else .ok (tokenBytes kind (ntok kind length) length)

/-- Where an instruction stands: the header only at index 0 of a container, records after it (R97, assumption 11). -/
inductive Place where
  | header
  | record
  deriving DecidableEq, Repr

/-- Why the decoder finds no row: rejected by name. -/
inductive DecodeError where
  /-- Fewer than 8 bytes where the header should stand (R222). -/
  | headerTooShort
  /-- The first four bytes are not the magic (R224). -/
  | notMagic
  /-- A token byte would lie beyond the container (R92 (c)). -/
  | leavesContainer
  deriving DecidableEq, Repr

/-- The row of a well-formed token: kind and byte count (R97). -/
def Instr.ofToken (t : Token) : Instr :=
  match t.kind, t.size with
  | .literal, 1 => .lit1 t.length
  | .literal, 2 => .lit2 t.length
  | .literal, 3 => .lit3 t.length
  | .literal, _ => .lit4 t.length
  | .byteRepeat, 1 => .brep1 t.length
  | .byteRepeat, 2 => .brep2 t.length
  | .byteRepeat, 3 => .brep3 t.length
  | .byteRepeat, _ => .brep4 t.length
  | .wordRepeat, 1 => .wrep1 t.length
  | .wordRepeat, 2 => .wrep2 t.length
  | .wordRepeat, 3 => .wrep3 t.length
  | .wordRepeat, _ => .wrep4 t.length
  | .alphaRepeat, 1 => .arep1 t.length
  | .alphaRepeat, 2 => .arep2 t.length
  | .alphaRepeat, 3 => .arep3 t.length
  | .alphaRepeat, _ => .arep4 t.length

/-- `RESERVED.WA` with the untested bits of its byte. -/
def reservedInstr (b : Byte) : Instr := .reservedWA (isExtended b) (b.setWidth 4)

/-- `MALFORMED.EXT4` with the untested bits of its four bytes. -/
def ext4Instr (b0 b1 b2 b3 : Byte) : Instr :=
  .malformedExt4 (b0.setWidth 7) (b1.setWidth 7) (b2.setWidth 7) (b3.setWidth 7)

/-- The row of a record's token (R94, R97, R111). -/
def decodeRecord (bytes : List Byte) : Except DecodeError Instr :=
  match unpack bytes, bytes with
  | .ok t, _ => .ok (Instr.ofToken t)
  | .error .reservedFlags, b :: _ => .ok (reservedInstr b)
  | .error .fifthByte, b0 :: b1 :: b2 :: b3 :: _ => .ok (ext4Instr b0 b1 b2 b3)
  | .error _, _ => .error .leavesContainer

/-- The header at index 0 (R80, R81): the length test comes before the magic test (R181). -/
def decodeHeader : List Byte → Except DecodeError Instr
  | m0 :: m1 :: m2 :: m3 :: t0 :: t1 :: t2 :: t3 :: _ =>
    if [m0, m1, m2, m3] = magic then .ok (.hdr (BitVec.ofNat 32 (le32 t0 t1 t2 t3)))
    else .error .notMagic
  | _ => .error .headerTooShort

/-- The decoder: total on any bytes, the row they begin with or a rejection by name. -/
def decode : Place → List Byte → Except DecodeError Instr
  | .header, bytes => decodeHeader bytes
  | .record, bytes => decodeRecord bytes

/-- The place a row stands at (R97). -/
def Instr.place : Instr → Place
  | .hdr _ => .header
  | _ => .record

/-- The first bytes of `RESERVED.WA` (R92 (a), wire pattern `x111xxxx`). -/
def encodeReserved (ext : Bool) (low : BitVec 4) : List Byte :=
  [BitVec.ofNat 8 (0x70 ||| extBit ext ||| low.toNat)]

/-- The bytes of `MALFORMED.EXT4` (R92 (b), wire pattern `1xxxxxxx` four times). -/
def encodeExt4 (b0 b1 b2 b3 : BitVec 7) : List Byte :=
  [contByte true b0.toNat, contByte true b1.toNat, contByte true b2.toNat, contByte true b3.toNat]

/-- The header's bytes (R80, R81, R82). -/
def encodeHeader (t : Word32) : List Byte := magic ++ leBytes t.toNat

/-- The encoder: the token (or header) bytes of a well-formed instruction in wire order (R84 to R88, R97). -/
def encode : Instr → List Byte
  | .lit1 n => tokenBytes .literal 1 n
  | .lit2 n => tokenBytes .literal 2 n
  | .lit3 n => tokenBytes .literal 3 n
  | .lit4 n => tokenBytes .literal 4 n
  | .brep1 n => tokenBytes .byteRepeat 1 n
  | .brep2 n => tokenBytes .byteRepeat 2 n
  | .brep3 n => tokenBytes .byteRepeat 3 n
  | .brep4 n => tokenBytes .byteRepeat 4 n
  | .arep1 n => tokenBytes .alphaRepeat 1 n
  | .arep2 n => tokenBytes .alphaRepeat 2 n
  | .arep3 n => tokenBytes .alphaRepeat 3 n
  | .arep4 n => tokenBytes .alphaRepeat 4 n
  | .wrep1 n => tokenBytes .wordRepeat 1 n
  | .wrep2 n => tokenBytes .wordRepeat 2 n
  | .wrep3 n => tokenBytes .wordRepeat 3 n
  | .wrep4 n => tokenBytes .wordRepeat 4 n
  | .reservedWA ext low => encodeReserved ext low
  | .malformedExt4 b0 b1 b2 b3 => encodeExt4 b0 b1 b2 b3
  | .hdr t => encodeHeader t

/-- Bytes of the longest token (`TOKEN_MAX_BYTES`, R6). -/
def tokenMaxBytes : Nat := 4

/-- Bytes of the header (`HDR_LEN`, R6). -/
def headerLen : Nat := 8

/-- The bytes a table word stands for, in wire order, padded with zeros to the longest token; the 64-bit view is the header's
(R97, assumption 11). -/
def tableBytes (nbits w : Nat) : List Byte :=
  if nbits = 64 then wordBytes headerLen (w % 2 ^ 64) else wordBytes tokenMaxBytes (w % 2 ^ nbits)

/-- Where a table word of this many bits stands (R97, assumption 11). -/
def tablePlace (nbits : Nat) : Place := if nbits = 64 then .header else .record

/-- The instruction the decoder reads from a word numbered as spec/opcode_table.json numbers it. -/
def decodeTableWord (nbits w : Nat) : Option Instr :=
  (decode (tablePlace nbits) (tableBytes nbits w)).toOption

end Sys2Proof
end

