-- ==== Sys2Proof/Machine/State.lean ====
section
/-!
DEFINITION. The state of one instance of the block: every register 10_state.md names, the input space and the sink, and the
host's side of the interface as plain data. Reset is 10_state.md R34 and 70_reset_and_hazards.md R250.
-/

namespace Sys2Proof.Machine

/-- The input space as (index, byte) pairs, in canonical form (`Memory.wf`, assumption 8). -/
abbrev Memory := List Host.Cell

/-- The agents that step while PHASE is BUSY (10_state.md R20). -/
inductive Agent where
  | compressor
  | decompressor
  deriving DecidableEq, Repr

/-- PHASE (10_state.md R28); BUSY says which agent's operation is running (assumption 15). -/
inductive Phase where
  | idle
  | busy (agent : Agent)
  | done
  deriving DecidableEq, Repr

/-- What the host hands over to start an operation (44_host_interface.md R206): the input buffer, and whether the storage it
put behind the sink overlaps the input's (20_memory.md R67, assumption 6). -/
structure Launch where
  input : List Byte
  overlaps : Bool
  deriving DecidableEq, Repr

/-- The host's moves (10_state.md R20, R21; 44_host_interface.md R200). -/
inductive HostCall where
  /-- Write `CFG.alpha` (R21, R207). -/
  | setAlpha (alpha : Bool)
  /-- Entry point `header` (R201). -/
  | header (buffer : List Byte)
  /-- Entry point `declared_length` (R202). -/
  | declaredLength (buffer : List Byte)
  /-- Entry point `compress` (R203). -/
  | compress (launch : Launch)
  /-- Entry point `decompress` (R204). -/
  | decompress (launch : Launch)
  deriving DecidableEq, Repr

/-- What `header` and `declared_length` return (R201, R202). -/
inductive Reply where
  | value (v : Nat)
  | fail (k : Failure)
  deriving DecidableEq, Repr

/-- The architectural state of one instance (10_state.md R29), the parameters of the running operation (R22), and the host's
side (R20). -/
structure State where
  /-- PHASE (R28). -/
  phase : Phase
  /-- RESULT (R28); the host reads it while PHASE is DONE. -/
  result : Result
  /-- CFG.alpha (R21). -/
  cfgAlpha : Bool
  /-- IN (R22, R50); while no operation runs, the last launch's buffer (assumption 23). -/
  inp : Memory
  /-- IN_LEN (R22): below 2^32; while no operation runs, the last launch's length (assumption 23). -/
  inLen : Nat
  /-- CUR, the block's program counter (R23): 0 .. IN_LEN. -/
  cur : Nat
  /-- OUT (R24, R59), first byte first. -/
  out : List Byte
  /-- OUT_CNT (R24): an exact natural. -/
  outCnt : Nat
  /-- TOTAL_LEN (R25). -/
  totalLen : Word32
  /-- The model's own: the host's moves still to be made, oldest first (assumption 4). -/
  calls : List HostCall
  /-- The model's own: what `header` and `declared_length` returned, oldest first (assumption 5). -/
  replies : List Reply
  /-- The model's own: which free value RESULT takes at the next start (assumption 3). -/
  freeIdx : Nat
  deriving DecidableEq, Repr

/-- After power-on reset (R34, R250): PHASE, CFG.alpha, OUT and OUT_CNT as the spec gives them; RESULT, CUR, TOTAL_LEN, IN and
IN_LEN, to which it gives no value, as assumptions 1 and 2 name them. -/
def State.reset : State where
  phase := .idle
  result := .ok 0
  cfgAlpha := true
  inp := []
  inLen := 0
  cur := 0
  out := []
  outCnt := 0
  totalLen := 0#32
  calls := []
  replies := []
  freeIdx := 0

/-- Where the machine stops because no rule of the spec says what happens. No state that keeps `State.Inv` raises one
(assumption 16), so both are safe. -/
inductive Fault where
  /-- A read of IN at an index at or beyond IN_LEN, which 20_memory.md R57 says no rule makes. Raised by the compressor's
  emit step were its run to leave the buffer. Safe. -/
  | inputOutOfRange
  /-- PHASE is BUSY and CUR lies beyond IN_LEN, where no transition is enabled (42_compressor.md R172, 43_decompressor.md
  R193). Raised by the compressor's and the decompressor's step. Safe. -/
  | cursorPastEnd
  deriving DecidableEq, Repr

/-- What the model refuses to give a meaning, by name. -/
inductive Refusal where
  /-- An instruction without a meaning yet. No arm of `exec` answers it. Safe. -/
  | notModelled (mnemonic : String)
  /-- An entry point called with a buffer of 2^32 bytes or more (10_state.md R22, 93 U13). Raised by the host's call. Safe. -/
  | launchTooLong
  /-- A launch whose sink overlaps its input (20_memory.md R67, 93 U14). Raised by the host's call. Safe. -/
  | launchOverlap
  deriving DecidableEq, Repr

/-- The outcome of one step of this machine. -/
abbrev Outcome := Host.Outcome State Fault Refusal

end Sys2Proof.Machine
end

