-- ==== Sys2Proof/Machine/Ops.lean ====
section
/-!
DEFINITION. The named operations over the input space, the sink and the registers (00_scope.md R8), the start of an operation
(70_reset_and_hazards.md R251) and taking a failure (60_exceptions.md R230), each said once.
-/

namespace Sys2Proof.Machine

/-- What an index with no entry holds: the byte 0, so a buffer's zero bytes are not listed (assumption 8). -/
def Memory.unlisted : Byte := 0x00#8

/-- The byte at an index. -/
def Memory.read : Memory → Nat → Byte
  | [], _ => Memory.unlisted
  | (i, b) :: m, a => if i = a then b else Memory.read m a

/-- The canonical image of a buffer whose first byte stands at index `a`. -/
def Memory.load : Nat → List Byte → Memory
  | _, [] => []
  | a, b :: bs => if b = Memory.unlisted then Memory.load (a + 1) bs else (a, b) :: Memory.load (a + 1) bs

/-- Indices rise strictly from `lo`, stay below `len`, and no entry equals the unlisted byte. -/
def Memory.wfFrom (len : Nat) : Nat → Memory → Bool
  | _, [] => true
  | lo, (i, b) :: m => decide (lo ≤ i) && decide (i < len) && b != Memory.unlisted && Memory.wfFrom len (i + 1) m

/-- The canonical form of an input space of `len` bytes (assumption 8). -/
def Memory.wf (len : Nat) (m : Memory) : Bool := Memory.wfFrom len 0 m

/-- `IN[a]` (R8). Every rule that uses it keeps `a < IN_LEN` by its own guard (20_memory.md R57). -/
def State.inByte (s : State) (a : Nat) : Byte := s.inp.read a

/-- The `n` bytes a reader gives from index `a` on: `MemRead(a, n)` of R8. -/
def readBytes (rd : Nat → Byte) : Nat → Nat → List Byte
  | _, 0 => []
  | a, n + 1 => rd a :: readBytes rd (a + 1) n

/-- The bytes of IN from `a` on, at most `n`, none at or beyond IN_LEN: what a fetch bounded by the container's end sees
(40_token_codec.md R111, R115). -/
def State.window (s : State) (a n : Nat) : List Byte := readBytes s.inByte a (min n (s.inLen - a))

/-- Act only if the `n` bytes from `a` on lie inside IN (R57). -/
def State.within (s : State) (a n : Nat) (act : Outcome) : Outcome :=
  if a + n ≤ s.inLen then act else .fault .inputOutOfRange

/-- `emit(v)` of R8: append to the sink and count (20_memory.md R59). -/
def State.emit (s : State) (v : List Byte) : State :=
  { s with out := s.out ++ v, outCnt := s.outCnt + v.length }

/-- `CUR <- t` of R8. -/
def State.setCur (s : State) (t : Nat) : State := { s with cur := t }

/-- Failure entry (R230): RESULT and PHASE, nothing else. That IN and IN_LEN, the ended operation's parameters, are still held from
here on is assumption 23. -/
def State.raise (s : State) (k : Failure) : State :=
  { s with result := .fail k, phase := .done }

/-- A successful end (42_compressor.md R169, 43_decompressor.md R188). DESIGN CHOICE (assumption 23): IN and IN_LEN, which
10_state.md R22 and R29 give to a running operation only, keep the launch's buffer. -/
def State.succeed (s : State) : State :=
  { s with result := .ok s.outCnt, phase := .done }

/-- What both start steps begin with (R161, R181, R251): PHASE BUSY, an empty sink, and RESULT unspecified until DONE (10_state.md
R34, assumption 3). -/
def State.begin (s : State) (agent : Agent) : State :=
  { s with phase := .busy agent, out := [], outCnt := 0,
           result := Config.unspecifiedResult s.freeIdx, freeIdx := s.freeIdx + 1 }

/-- The host's buffer becomes IN, IN_LEN (10_state.md R22). -/
def State.setInput (s : State) (buffer : List Byte) : State :=
  { s with inp := Memory.load 0 buffer, inLen := buffer.length }

/-- The failure kind a rejection by the decoder raises (60_exceptions.md R222, R224, R226). -/
def failureOf : DecodeError → Failure
  | .headerTooShort => .lengthError
  | .notMagic => .invalidHeader
  | .leavesContainer => .malformedToken

/-- The state of a next outcome. -/
def nextOf? : Outcome → Option State
  | .next s => some s
  | .fault _ => none
  | .refused _ => none

end Sys2Proof.Machine
end

