-- ==== Sys2Proof/Machine/Operands.lean ====
section
/-!
DEFINITION. The operand forms of a record (30_encoding.md R91): how many payload bytes follow the token, how many data bytes
they stand for, the data a payload restores (43_decompressor.md R183 to R186), the payload a run stores (42_compressor.md
R163 to R166), and the one shared record step over them (43_decompressor.md R182).
-/

namespace Sys2Proof.Machine

/-- `need` of R182, `paysize` of R171: payload bytes after the token (R91). -/
def paySize : Kind → Nat → Nat
  | .literal, n => n
  | .byteRepeat, _ => 1
  | .wordRepeat, _ => 4
  | .alphaRepeat, n => 1 + 3 * n

/-- `span` of R162: data bytes a run or record stands for (R91). -/
def span : Kind → Nat → Nat
  | .literal, n => n
  | .byteRepeat, n => n
  | .wordRepeat, n => 4 * n
  | .alphaRepeat, n => 4 * n

/-- `rep(s, n)` of 00_scope.md R7. -/
def rep (v : List Byte) : Nat → List Byte
  | 0 => []
  | n + 1 => v ++ rep v n

/-- The `n` pixels of R186: the alpha byte `a`, then three stored bytes from index `p` on. -/
def pixels (rd : Nat → Byte) (a : Byte) : Nat → Nat → List Byte
  | _, 0 => []
  | p, n + 1 => a :: rd p :: rd (p + 1) :: rd (p + 2) :: pixels rd a (p + 3) n

/-- The `n` triples of R166: bytes 1, 2, 3 of each pixel from index `c` on. -/
def triples (rd : Nat → Byte) : Nat → Nat → List Byte
  | _, 0 => []
  | c, n + 1 => rd (c + 1) :: rd (c + 2) :: rd (c + 3) :: triples rd (c + 4) n

/-- What `LIT n` appends, payload from `q` on (R183). -/
def restoreLit (rd : Nat → Byte) (q n : Nat) : List Byte := readBytes rd q n
/-- What `BREP n` appends (R184). -/
def restoreBrep (rd : Nat → Byte) (q n : Nat) : List Byte := rep [rd q] n
/-- What `WREP n` appends (R185), in payload order (20_memory.md R54). -/
def restoreWrep (rd : Nat → Byte) (q n : Nat) : List Byte := rep (readBytes rd q 4) n
/-- What `AREP n` appends (R186), the alpha byte at the lowest index of each pixel (R54). -/
def restoreArep (rd : Nat → Byte) (q n : Nat) : List Byte := pixels rd (rd q) (q + 1) n

/-- The bytes a record appends (R183 to R186). -/
def restore : Kind → (Nat → Byte) → Nat → Nat → List Byte
  | .literal, rd, q, n => restoreLit rd q n
  | .byteRepeat, rd, q, n => restoreBrep rd q n
  | .wordRepeat, rd, q, n => restoreWrep rd q n
  | .alphaRepeat, rd, q, n => restoreArep rd q n

/-- The payload of a literal run at `c` (R163). -/
def storeLit (rd : Nat → Byte) (c n : Nat) : List Byte := readBytes rd c n
/-- The payload of a byte repeat at `c` (R164). -/
def storeBrep (rd : Nat → Byte) (c : Nat) : List Byte := [rd c]
/-- The payload of a word repeat at `c` (R165). -/
def storeWrep (rd : Nat → Byte) (c : Nat) : List Byte := readBytes rd c 4
/-- The payload of an alpha repeat at `c` (R166). -/
def storeArep (rd : Nat → Byte) (c n : Nat) : List Byte := rd c :: triples rd c n

/-- The record step after the token of `k` bytes at CUR has been unpacked (R182): TruncatedRecord if the payload leaves the
container (R187), else append and move CUR past the payload. -/
def execRecord (kind : Kind) (k n : Nat) (s : State) : Outcome :=
  if s.cur + k + paySize kind n > s.inLen then .next (s.raise .truncatedRecord)
  else .next ((s.emit (restore kind s.inByte (s.cur + k) n)).setCur (s.cur + k + paySize kind n))

end Sys2Proof.Machine
end

