-- ==== Sys2Proof/Machine/Classifier.lean ====
section
/-!
DEFINITION. RunClassifier (41_run_classifier.md): a pure function of the input buffer, given as a reader `rd` and a length
`len`, of the cursor `cur` and of `CFG.alpha`. Its constants are those of 00_scope.md R6.
-/

namespace Sys2Proof.Machine

/-- A Run (10_state.md R26): `length` in bytes, words or pixels as the kind says (R130). -/
structure Run where
  kind : Kind
  length : Nat
  deriving DecidableEq, Repr

/-- `aligned(x)` (R131), counted from index 0 of the buffer. -/
def aligned (x : Nat) : Bool := x % 4 == 0

/-- `word(a) = word(b)`: four bytes pairwise equal (R131). -/
def sameWord (rd : Nat → Byte) (a b : Nat) : Bool :=
  rd a == rd b && rd (a + 1) == rd (b + 1) && rd (a + 2) == rd (b + 2) && rd (a + 3) == rd (b + 3)

/-- `broadcast(a)` (R131). -/
def broadcast (rd : Nat → Byte) (a : Nat) : Bool :=
  rd a == rd (a + 1) && rd (a + 1) == rd (a + 2) && rd (a + 2) == rd (a + 3)

/-- The counting loops of R132 to R134: from `n`, count on while `p` holds. `fuel` only bounds the recursion; the callers give
the bytes left, and every count stands for at least one byte. -/
def countWhile (p : Nat → Bool) : Nat → Nat → Nat
  | 0, n => n
  | fuel + 1, n => if p n then countWhile p fuel (n + 1) else n

/-- Step 1's loop condition (R132): the word after the `n` counted lies inside the buffer and equals the first. -/
def moreWords (rd : Nat → Byte) (len cur n : Nat) : Bool :=
  decide (cur + 4 * n + 4 ≤ len) && sameWord rd (cur + 4 * n) cur

/-- Step 1, word repeat check (R132). -/
def classifyWord (rd : Nat → Byte) (len cur : Nat) : Option Run :=
  if aligned cur && decide (cur + 4 ≤ len) then
    let n := countWhile (moreWords rd len cur) (len - cur) 1
    if n > 1 then
      if broadcast rd cur then some ⟨.byteRepeat, 4 * n⟩ else some ⟨.wordRepeat, n⟩
    else none
  else none

/-- Step 2's loop condition (R133). -/
def moreBytes (rd : Nat → Byte) (len cur c : Nat) : Bool :=
  decide (cur + c < len) && rd (cur + c) == rd cur

/-- Step 2, byte repeat check (R133). -/
def classifyByte (rd : Nat → Byte) (len cur : Nat) : Option Run :=
  let c := countWhile (moreBytes rd len cur) (len - cur) 1
  if c > 2 then some ⟨.byteRepeat, c⟩ else none

/-- Step 3's loop condition (R134): the next pixel is whole, shares the alpha byte, and no identical pair begins at it. -/
def morePixels (rd : Nat → Byte) (len cur m : Nat) : Bool :=
  decide (cur + 4 * m + 4 ≤ len) && rd (cur + 4 * m) == rd cur &&
    !(decide (cur + 4 * m + 8 ≤ len) && sameWord rd (cur + 4 * m) (cur + 4 * m + 4))

/-- Step 3, alpha repeat check (R134). -/
def classifyAlpha (rd : Nat → Byte) (len cur : Nat) (alpha : Bool) : Option Run :=
  if alpha && aligned cur && decide (cur + 4 ≤ len) then
    let m := countWhile (morePixels rd len cur) (len - cur) 1
    if m > 2 then some ⟨.alphaRepeat, m⟩ else none
  else none

/-- Trigger (a) of the literal scan (R135): three equal bytes end at `i`. -/
def triggerByte (rd : Nat → Byte) (i : Nat) : Bool :=
  rd i == rd (i - 1) && rd (i - 1) == rd (i - 2)

/-- Trigger (b) (R135): the aligned word ending at `i` equals the one before it. -/
def triggerWord (rd : Nat → Byte) (cur i : Nat) : Bool :=
  aligned (i + 1) && decide (cur + 7 ≤ i) && sameWord rd (i - 3) (i - 7)

/-- Trigger (c) (R135): three aligned pixels up to `i` have equal alpha bytes. -/
def triggerAlpha (rd : Nat → Byte) (cur : Nat) (alpha : Bool) (i : Nat) : Bool :=
  aligned (i + 1) && alpha && decide (cur + 15 ≤ i) &&
    (rd (i - 3) == rd (i - 7) && rd (i - 7) == rd (i - 11))

/-- The scan of R135 from index `i` over `count` further bytes: the literal's length at the earliest trigger, (a) before (b)
before (c). -/
def scanLiteral (rd : Nat → Byte) (cur : Nat) (alpha : Bool) : Nat → Nat → Option Nat
  | 0, _ => none
  | count + 1, i =>
    if triggerByte rd i then some (i - cur - 2)
    else if triggerWord rd cur i then some (i - cur - 7)
    else if triggerAlpha rd cur alpha i then some (i - cur - 11)
    else scanLiteral rd cur alpha count (i + 1)

/-- Step 4, literal run (R135, R136): to the earliest trigger, else to the end of the buffer. -/
def classifyLiteral (rd : Nat → Byte) (len cur : Nat) (alpha : Bool) : Run :=
  match scanLiteral rd cur alpha (len - (cur + 3)) (cur + 3) with
  | some n => ⟨.literal, n⟩
  | none => ⟨.literal, len - cur⟩

/-- `classify(cur)` (R130): the first step that classifies returns. -/
def classify (rd : Nat → Byte) (len cur : Nat) (alpha : Bool) : Run :=
  match classifyWord rd len cur with
  | some r => r
  | none =>
    match classifyByte rd len cur with
    | some r => r
    | none =>
      match classifyAlpha rd len cur alpha with
      | some r => r
      | none => classifyLiteral rd len cur alpha

end Sys2Proof.Machine
end

