-- ==== Sys2Proof/Machine/Compressor.lean ====
section
/-!
DEFINITION. The compressor's steps (42_compressor.md): start R161, record R162 to R168, end R169.
-/

namespace Sys2Proof.Machine

/-- Start step (R161), IN and IN_LEN being set: the header is emitted before any classification. -/
def compressStart (s : State) : Outcome :=
  .next ((((s.begin .compressor).setCur 0).emit magic).emit (leBytes s.inLen))

/-- What the four emits share: `Overflow` from `pack` before anything is appended (R168), then token, payload, and CUR past the
run. -/
def emitRun (kind : Kind) (n : Nat) (payload : List Byte) (s : State) : Outcome :=
  match pack kind n with
  | .error k => .next (s.raise k)
  | .ok token => s.within s.cur (span kind n) (.next (((s.emit token).emit payload).setCur (s.cur + span kind n)))

/-- Emit `LIT` (R163). -/
def emitLit (n : Nat) (s : State) : Outcome := emitRun .literal n (storeLit s.inByte s.cur n) s
/-- Emit `BREP` (R164). -/
def emitBrep (n : Nat) (s : State) : Outcome := emitRun .byteRepeat n (storeBrep s.inByte s.cur) s
/-- Emit `WREP` (R165). -/
def emitWrep (n : Nat) (s : State) : Outcome := emitRun .wordRepeat n (storeWrep s.inByte s.cur) s
/-- Emit `AREP` (R166). -/
def emitArep (n : Nat) (s : State) : Outcome := emitRun .alphaRepeat n (storeArep s.inByte s.cur n) s

/-- The emit of a run's kind (R162). -/
def emitKind : Kind → Nat → State → Outcome
  | .literal, n, s => emitLit n s
  | .byteRepeat, n, s => emitBrep n s
  | .wordRepeat, n, s => emitWrep n s
  | .alphaRepeat, n, s => emitArep n s

/-- The run at CUR (R130, R162). -/
def State.nextRun (s : State) : Run := classify s.inByte s.inLen s.cur s.cfgAlpha

/-- Record step (R162): the check for `Unknown` (R167) before `pack`. -/
def compressRecord (s : State) : Outcome :=
  if s.nextRun.length = 0 then .next (s.raise .unknown)
  else emitKind s.nextRun.kind s.nextRun.length s

/-- One step of a running compressor (R172): a record while CUR < IN_LEN (R162), the end at CUR = IN_LEN (R169). -/
def compressStep (s : State) : Outcome :=
  if s.cur < s.inLen then compressRecord s
  else if s.cur = s.inLen then .next s.succeed
  else .fault .cursorPastEnd

end Sys2Proof.Machine
end

