-- ==== Sys2Proof/Machine/AlphaRepeat.lean ====
section
/-!
DEFINITION. The meanings of `AREP.1` to `AREP.4` (43_decompressor.md R186): one record executed by the decompressor.
-/

namespace Sys2Proof.Machine

/-- `AREP.1`: a token of 1 byte (R186, R182). -/
def execArep1 (n : Nat) (s : State) : Outcome := execRecord .alphaRepeat 1 n s

/-- `AREP.2`: a token of 2 bytes (R186, R182). -/
def execArep2 (n : Nat) (s : State) : Outcome := execRecord .alphaRepeat 2 n s

/-- `AREP.3`: a token of 3 bytes (R186, R182). -/
def execArep3 (n : Nat) (s : State) : Outcome := execRecord .alphaRepeat 3 n s

/-- `AREP.4`: a token of 4 bytes (R186, R182). -/
def execArep4 (n : Nat) (s : State) : Outcome := execRecord .alphaRepeat 4 n s

end Sys2Proof.Machine
end

