-- ==== Sys2Proof/Machine/ByteRepeat.lean ====
section
/-!
DEFINITION. The meanings of `BREP.1` to `BREP.4` (43_decompressor.md R184): one record executed by the decompressor.
-/

namespace Sys2Proof.Machine

/-- `BREP.1`: a token of 1 byte (R184, R182). -/
def execBrep1 (n : Nat) (s : State) : Outcome := execRecord .byteRepeat 1 n s

/-- `BREP.2`: a token of 2 bytes (R184, R182). -/
def execBrep2 (n : Nat) (s : State) : Outcome := execRecord .byteRepeat 2 n s

/-- `BREP.3`: a token of 3 bytes (R184, R182). -/
def execBrep3 (n : Nat) (s : State) : Outcome := execRecord .byteRepeat 3 n s

/-- `BREP.4`: a token of 4 bytes (R184, R182). -/
def execBrep4 (n : Nat) (s : State) : Outcome := execRecord .byteRepeat 4 n s

end Sys2Proof.Machine
end

