-- ==== Sys2Proof/Machine/Header.lean ====
section
/-!
DEFINITION. The meaning of the row `HDR` (43_decompressor.md R181): what the decompressor's start step writes once its two
checks have passed.
-/

namespace Sys2Proof.Machine

/-- `HDR`: TOTAL_LEN is loaded and CUR goes to the first record (R181). -/
def execHdr (t : Word32) (s : State) : Outcome := .next { s with totalLen := t, cur := headerLen }

end Sys2Proof.Machine
end

