-- ==== Sys2Proof/Machine/Literal.lean ====
section
/-!
DEFINITION. The meanings of `LIT.1` to `LIT.4` (43_decompressor.md R183): one record executed by the decompressor.
-/

namespace Sys2Proof.Machine

/-- `LIT.1`: a token of 1 byte (R183, R182). -/
def execLit1 (n : Nat) (s : State) : Outcome := execRecord .literal 1 n s

/-- `LIT.2`: a token of 2 bytes (R183, R182). -/
def execLit2 (n : Nat) (s : State) : Outcome := execRecord .literal 2 n s

/-- `LIT.3`: a token of 3 bytes (R183, R182). -/
def execLit3 (n : Nat) (s : State) : Outcome := execRecord .literal 3 n s

/-- `LIT.4`: a token of 4 bytes (R183, R182). -/
def execLit4 (n : Nat) (s : State) : Outcome := execRecord .literal 4 n s

end Sys2Proof.Machine
end

