-- ==== Sys2Proof/Machine/Malformed.lean ====
section
/-!
DEFINITION. The meanings of the two token patterns that name no record (30_encoding.md R92): each takes the failure
MalformedToken (60_exceptions.md R226, R230).
-/

namespace Sys2Proof.Machine

/-- `RESERVED.WA`: the reserved flag pair (R92 (a), decision D7). -/
def execReservedWA (_ext : Bool) (_low : BitVec 4) (s : State) : Outcome := .next (s.raise .malformedToken)

/-- `MALFORMED.EXT4`: the fourth byte asks for a fifth (R92 (b), decision D8). -/
def execMalformedExt4 (_b0 _b1 _b2 _b3 : BitVec 7) (s : State) : Outcome := .next (s.raise .malformedToken)

end Sys2Proof.Machine
end

