-- ==== Sys2Proof/Machine/WordRepeat.lean ====
section
/-!
DEFINITION. The meanings of `WREP.1` to `WREP.4` (43_decompressor.md R185): one record executed by the decompressor.
-/

namespace Sys2Proof.Machine

/-- `WREP.1`: a token of 1 byte (R185, R182). -/
def execWrep1 (n : Nat) (s : State) : Outcome := execRecord .wordRepeat 1 n s

/-- `WREP.2`: a token of 2 bytes (R185, R182). -/
def execWrep2 (n : Nat) (s : State) : Outcome := execRecord .wordRepeat 2 n s

/-- `WREP.3`: a token of 3 bytes (R185, R182). -/
def execWrep3 (n : Nat) (s : State) : Outcome := execRecord .wordRepeat 3 n s

/-- `WREP.4`: a token of 4 bytes (R185, R182). -/
def execWrep4 (n : Nat) (s : State) : Outcome := execRecord .wordRepeat 4 n s

end Sys2Proof.Machine
end

