-- ==== Sys2Proof/Machine/Dispatch.lean ====
section
/-!
DEFINITION. One arm per row of spec/opcode_table.json, each one direct call of that row's meaning.
-/

namespace Sys2Proof.Machine

def exec (i : Instr) (s : State) : Host.Outcome State Fault Refusal :=
  match i with
  | .lit1 n => Sys2Proof.Machine.execLit1 n s
  | .lit2 n => Sys2Proof.Machine.execLit2 n s
  | .lit3 n => Sys2Proof.Machine.execLit3 n s
  | .lit4 n => Sys2Proof.Machine.execLit4 n s
  | .brep1 n => Sys2Proof.Machine.execBrep1 n s
  | .brep2 n => Sys2Proof.Machine.execBrep2 n s
  | .brep3 n => Sys2Proof.Machine.execBrep3 n s
  | .brep4 n => Sys2Proof.Machine.execBrep4 n s
  | .arep1 n => Sys2Proof.Machine.execArep1 n s
  | .arep2 n => Sys2Proof.Machine.execArep2 n s
  | .arep3 n => Sys2Proof.Machine.execArep3 n s
  | .arep4 n => Sys2Proof.Machine.execArep4 n s
  | .wrep1 n => Sys2Proof.Machine.execWrep1 n s
  | .wrep2 n => Sys2Proof.Machine.execWrep2 n s
  | .wrep3 n => Sys2Proof.Machine.execWrep3 n s
  | .wrep4 n => Sys2Proof.Machine.execWrep4 n s
  | .reservedWA ext low => Sys2Proof.Machine.execReservedWA ext low s
  | .malformedExt4 b0 b1 b2 b3 => Sys2Proof.Machine.execMalformedExt4 b0 b1 b2 b3 s
  | .hdr t => Sys2Proof.Machine.execHdr t s

end Sys2Proof.Machine
end

