-- ==== Sys2Proof/Machine/Decompressor.lean ====
section
/-!
DEFINITION. The decompressor's steps (43_decompressor.md): start R181, record R182, end R188. A step fetches the bytes at
its place, decodes them and runs the instruction; a rejection by the decoder is the failure R181 or R226 names.
-/

namespace Sys2Proof.Machine

/-- The bytes the decoder is given: the first 8 of the container for the header (R181), at most 4 from CUR for a record (R111),
never one at or beyond IN_LEN. -/
def State.fetch (s : State) : Place → List Byte
  | .header => s.window 0 headerLen
  | .record => s.window s.cur tokenMaxBytes

/-- Fetch, decode, run. -/
def fetchExec (place : Place) (s : State) : Outcome :=
  match decode place (s.fetch place) with
  | .ok i => exec i s
  | .error e => .next (s.raise (failureOf e))

/-- Start step (R181), IN and IN_LEN being set. -/
def decompressStart (s : State) : Outcome := fetchExec .header (s.begin .decompressor)

/-- End step (R188): the exact natural OUT_CNT against the 32-bit TOTAL_LEN. -/
def decompressEnd (s : State) : Outcome :=
  if s.outCnt = s.totalLen.toNat then .next s.succeed else .next (s.raise .lengthMismatch)

/-- One step of a running decompressor (R193): a record while CUR < IN_LEN (R182), the end at CUR = IN_LEN (R188). -/
def decompressStep (s : State) : Outcome :=
  if s.cur < s.inLen then fetchExec .record s
  else if s.cur = s.inLen then decompressEnd s
  else .fault .cursorPastEnd

end Sys2Proof.Machine
end

