-- ==== Sys2Proof/Machine/HostInterface.lean ====
section
/-!
DEFINITION. The host's side (44_host_interface.md): the four entry points, the write of CFG.alpha, and how a table word is
placed for the next step to run.
-/

namespace Sys2Proof.Machine

/-- `header(IN)` (R201): the first four bytes as a little-endian value, not compared with the magic. -/
def headerReply : List Byte → Reply
  | m0 :: m1 :: m2 :: m3 :: _ :: _ :: _ :: _ :: _ => .value (le32 m0 m1 m2 m3)
  | _ => .fail .lengthError

/-- `declared_length(IN)` (R202): bytes 4..7 as a little-endian value. -/
def declaredLengthReply : List Byte → Reply
  | _ :: _ :: _ :: _ :: t0 :: t1 :: t2 :: t3 :: _ => .value (le32 t0 t1 t2 t3)
  | _ => .fail .lengthError

/-- The host receives an answer (assumption 5). -/
def State.answer (s : State) (r : Reply) : State := { s with replies := s.replies ++ [r] }

/-- Every entry point refuses a buffer of 2^32 bytes or more (10_state.md R22, decision D14). -/
def withBuffer (buffer : List Byte) (act : Outcome) : Outcome :=
  if buffer.length < Config.bufferBound then act else .refused .launchTooLong

/-- A launch (R203, R204): refused if the sink overlaps the input (20_memory.md R67), else IN and IN_LEN are set and the start
step is taken. -/
def launchWith (l : Launch) (s : State) (start : State → Outcome) : Outcome :=
  withBuffer l.input (if l.overlaps then .refused .launchOverlap else start (s.setInput l.input))

/-- One move of the host, `s` being the state without it. -/
def hostCall (c : HostCall) (s : State) : Outcome :=
  match c with
  | .setAlpha alpha => .next { s with cfgAlpha := alpha }
  | .header buffer => withBuffer buffer (.next (s.answer (headerReply buffer)))
  | .declaredLength buffer => withBuffer buffer (.next (s.answer (declaredLengthReply buffer)))
  | .compress l => launchWith l s compressStart
  | .decompress l => launchWith l s decompressStart

/-- A step while no operation runs: the host's next move, or nothing while it makes none (assumption 4). -/
def hostStep (s : State) : Outcome :=
  match s.calls with
  | [] => .next s
  | c :: rest => hostCall c { s with calls := rest }

/-- The bytes a record takes: its token and the payload the token asks for; a malformed token takes the bytes shown. -/
def recordSize (token : List Byte) : Nat :=
  match unpack token with
  | .ok t => t.size + paySize t.kind t.length
  | .error _ => token.length

/-- A container of a zero-length header and one record, whose token bytes begin `token` and whose payload is zeros, with the
decompressor at that record (assumption 12). -/
def placeRecord (token : List Byte) (s : State) : State :=
  { s with phase := .busy .decompressor, cur := headerLen,
           inLen := headerLen + recordSize token,
           inp := Memory.load 0 (encodeHeader 0#32 ++ token.take (recordSize token)) }

/-- The host about to call `decompress` on a container of just these header bytes (assumption 12). -/
def placeHeader (bytes : List Byte) (s : State) : State :=
  { s with phase := .idle, calls := .decompress ⟨bytes, false⟩ :: s.calls }

/-- The table word `w` of `nbits` bits placed where the next step fetches it (assumption 12). -/
def placeTableWord (nbits w : Nat) (s : State) : State :=
  match tablePlace nbits with
  | .header => placeHeader (tableBytes nbits w) s
  | .record => placeRecord (tableBytes nbits w) s

end Sys2Proof.Machine
end

