-- ==== Sys2Proof/Machine/Step.lean ====
section
/-!
DEFINITION. One architectural step (92_eei_decisions.md D1): a start step, one whole record, an end step, or a move of the
host while no operation runs (10_state.md R20, R28).
-/

namespace Sys2Proof.Machine

/-- One step of the machine: the agent PHASE names moves. -/
def step (s : State) : Host.Outcome State Fault Refusal :=
  match s.phase with
  | .idle => hostStep s
  | .done => hostStep s
  | .busy .compressor => compressStep s
  | .busy .decompressor => decompressStep s

/-- `s` with a table word placed so that the very next step runs it (assumption 12). -/
def State.withFetchWord (s : State) (nbits w : Nat) : State := placeTableWord nbits w s

end Sys2Proof.Machine
end

