-- ==== Sys2Proof/Safety.lean ====
section
/-!
DEFINITION. The terms claims use: the invariant of a state, the rows of the opcode table by kind, what two states of one
operation must agree on, and an operation's end.
-/

namespace Sys2Proof.Machine

/-- What every step keeps and reset has: IN is in canonical form and shorter than 2^32 (10_state.md R22), OUT_CNT = |OUT| (R24),
CUR stays in 0 .. IN_LEN while an operation runs (R23) and at 8 or above in a running decompressor (R23, R35), and a successful
RESULT is the count of bytes appended (42_compressor.md R169, 43_decompressor.md R189). -/
structure State.Inv (s : State) : Prop where
  memory : Memory.wf s.inLen s.inp = true
  bound : s.inLen < 2 ^ 32
  count : s.outCnt = s.out.length
  cursor : ∀ a, s.phase = .busy a → s.cur ≤ s.inLen
  records : s.phase = .busy .decompressor → 8 ≤ s.cur
  result : s.phase = .done → ∀ c, s.result = .ok c → c = s.outCnt

/-- The bounds on OUT_CNT that 10_state.md R24 and 42_compressor.md R171 derive: `8 + 5 * CUR` in a running compressor,
`2^27 * (CUR - 8)` in a running decompressor, and below `2^59` always. -/
structure State.OutBound (s : State) : Prop where
  compressor : s.phase = .busy .compressor → 8 ≤ s.outCnt ∧ s.outCnt ≤ 8 + 5 * s.cur
  decompressor : s.phase = .busy .decompressor → s.outCnt ≤ 2 ^ 27 * (s.cur - 8)
  always : s.outCnt < 2 ^ 59

/-- No operation is running: the host may move (10_state.md R28, 44_host_interface.md R203). -/
def State.free (s : State) : Prop := s.phase = .idle ∨ s.phase = .done

/-- The rows `LIT.1` to `LIT.4` for the length `n`, each with its token's byte count. -/
def litForms (n : Nat) : List (Instr × Nat) := [(.lit1 n, 1), (.lit2 n, 2), (.lit3 n, 3), (.lit4 n, 4)]

/-- The rows `BREP.1` to `BREP.4`. -/
def brepForms (n : Nat) : List (Instr × Nat) := [(.brep1 n, 1), (.brep2 n, 2), (.brep3 n, 3), (.brep4 n, 4)]

/-- The rows `WREP.1` to `WREP.4`. -/
def wrepForms (n : Nat) : List (Instr × Nat) := [(.wrep1 n, 1), (.wrep2 n, 2), (.wrep3 n, 3), (.wrep4 n, 4)]

/-- The rows `AREP.1` to `AREP.4`. -/
def arepForms (n : Nat) : List (Instr × Nat) := [(.arep1 n, 1), (.arep2 n, 2), (.arep3 n, 3), (.arep4 n, 4)]

/-- An outcome with its next state changed by `f`. -/
def mapNext (f : State → State) : Outcome → Outcome
  | .next s => .next (f s)
  | .fault r => .fault r
  | .refused r => .refused r

/-- What two states must agree on to be the same to the running operation and to the host from here on: everything a rule reads, but
not what 10_state.md R34 leaves unspecified (RESULT before DONE; CUR and TOTAL_LEN while no operation that has set them runs). Two
of the model's own fields are left out: `replies`, the answers the host already has, and `freeIdx`. -/
structure Agree (s t : State) : Prop where
  phase : s.phase = t.phase
  cfgAlpha : s.cfgAlpha = t.cfgAlpha
  inp : s.inp = t.inp
  inLen : s.inLen = t.inLen
  out : s.out = t.out
  outCnt : s.outCnt = t.outCnt
  calls : s.calls = t.calls
  cur : ∀ a, s.phase = .busy a → s.cur = t.cur
  totalLen : s.phase = .busy .decompressor → s.totalLen = t.totalLen
  result : s.phase = .done → s.result = t.result

/-- Two outcomes that agree: both next with states that agree, or the same stop. -/
def OutcomesAgree : Outcome → Outcome → Prop
  | .next s, .next t => Agree s t
  | .fault a, .fault b => a = b
  | .refused a, .refused b => a = b
  | _, _ => False

/-- The host called one entry point that ran from `s` to its end in `t`, with nothing else to do. -/
def RunsTo (s t : State) : Prop :=
  ∃ k, Sys2Proof.core.run k s = .next t ∧ t.phase = .done ∧ t.calls = []

end Sys2Proof.Machine
end

