-- ==== Sys2Proof/Certificates/Slice0/Obligations.lean ====
section
/-!
DEFINITION. The statements for the provers, each from numbered rules of spec/ (OBLIGATIONS.json lists them with their rules).
Where a statement gives the whole next state of a step that ends an operation, or says what IN and IN_LEN hold in DONE, that they
stay as the launch left them is the model's choice (assumption 23): the spec gives both to a running operation only.
-/

open Sys2Proof Sys2Proof.Machine

/-! ## Encoding and TokenCodec -/

/-- Decode and encode agree on every row of the opcode table: the bytes of a well-formed instruction, followed by anything,
decode to it at the place the row stands at (30_encoding.md R84 to R88, R97). That a MALFORMED.EXT4 with a reserved first byte is not
well formed is the model's choice (assumption 14). -/
def Obligations.DecodeOfEncode : Prop :=
  ∀ (i : Instr) (rest : List Byte), i.wf = true → decode i.place (encode i ++ rest) = .ok i

/-- Whatever the decoder names is well formed, stands at that place, and its encoding is what the bytes begin with: no row reads a bit
differently from the encoder. Bytes such as F0 80 80 80, which match the patterns of both RESERVED.WA and MALFORMED.EXT4 (R92), are
named RESERVED.WA: the model's choice (assumption 14), which the well-formedness here rests on. -/
def Obligations.DecodeReadsEncoding : Prop :=
  ∀ (p : Place) (bytes : List Byte) (i : Instr), decode p bytes = .ok i →
    i.wf = true ∧ i.place = p ∧ ∃ rest, bytes = encode i ++ rest

/-- Token round trip (40_token_codec.md R112), and that the converse fails: packing what was unpacked may be shorter. -/
def Obligations.UnpackOfPack : Prop :=
  (∀ (kind : Kind) (length : Nat), length ≤ kind.maxLen →
    ∃ t, pack kind length = .ok t ∧ ∀ rest, unpack (t ++ rest) = .ok ⟨kind, length, t.length⟩) ∧
  ∃ (bytes : List Byte) (tok : Token) (t : List Byte),
    unpack bytes = .ok tok ∧ tok.size = bytes.length ∧ pack tok.kind tok.length = .ok t ∧ t.length < tok.size

/-- `pack` fails with Overflow exactly above the maximum, and otherwise gives the shortest form (R89, R110). -/
def Obligations.PackIsShortest : Prop :=
  ∀ (kind : Kind) (length : Nat),
    (2 ^ (kind.firstBits + 21) ≤ length → pack kind length = .error .overflow) ∧
    (length < 2 ^ (kind.firstBits + 21) → ∃ t, pack kind length = .ok t ∧
      1 ≤ t.length ∧ t.length ≤ 4 ∧ length < 2 ^ (kind.firstBits + 7 * (t.length - 1)) ∧
      ∀ k, 1 ≤ k → k < t.length → 2 ^ (kind.firstBits + 7 * (k - 1)) ≤ length)

/-- The overflow boundary of each kind, with the tokens R113 writes out. -/
def Obligations.OverflowBoundary : Prop :=
  pack .literal 134217727 = .ok [0xBF#8, 0xFF#8, 0xFF#8, 0x7F#8] ∧
  pack .literal 134217728 = .error .overflow ∧
  pack .byteRepeat 33554431 = .ok [0xCF#8, 0xFF#8, 0xFF#8, 0x7F#8] ∧
  pack .wordRepeat 33554431 = .ok [0xEF#8, 0xFF#8, 0xFF#8, 0x7F#8] ∧
  pack .alphaRepeat 33554431 = .ok [0xDF#8, 0xFF#8, 0xFF#8, 0x7F#8] ∧
  pack .byteRepeat 33554432 = .error .overflow ∧
  pack .wordRepeat 33554432 = .error .overflow ∧
  pack .alphaRepeat 33554432 = .error .overflow

/-- Over-long tokens are accepted for every kind, byte count and length that fits (R114, 30_encoding.md R93 (a)); every byte
string `unpack` accepts is one of these. -/
def Obligations.UnpackAcceptsEveryForm : Prop :=
  (∀ (kind : Kind) (k n : Nat) (rest : List Byte), 1 ≤ k → k ≤ 4 → n < 2 ^ (kind.firstBits + 7 * (k - 1)) →
    unpack (tokenBytes kind k n ++ rest) = .ok ⟨kind, n, k⟩) ∧
  ∀ (bytes : List Byte) (t : Token), unpack bytes = .ok t →
    1 ≤ t.size ∧ t.size ≤ 4 ∧ t.length < 2 ^ (t.kind.firstBits + 7 * (t.size - 1)) ∧
    ∃ rest, bytes = tokenBytes t.kind t.size t.length ++ rest

/-- The four tokens of `LIT 5` that R114 writes out; only the first is produced by `pack`. -/
def Obligations.OverlongLiteralFive : Prop :=
  unpack [0x05#8] = .ok ⟨.literal, 5, 1⟩ ∧
  unpack [0x80#8, 0x05#8] = .ok ⟨.literal, 5, 2⟩ ∧
  unpack [0x80#8, 0x80#8, 0x05#8] = .ok ⟨.literal, 5, 3⟩ ∧
  unpack [0x80#8, 0x80#8, 0x80#8, 0x05#8] = .ok ⟨.literal, 5, 4⟩ ∧
  pack .literal 5 = .ok [0x05#8]

/-- `unpack` fails in three cases and no other: a first byte with bits 6, 5, 4 set, four bytes with bit 7 set, or a byte that
bit 7 announces lies beyond the end (60_exceptions.md R226, 40_token_codec.md R111). -/
def Obligations.MalformedTokenExactly : Prop :=
  ∀ (b : Byte) (rest : List Byte),
    (∃ e, unpack (b :: rest) = .error e) ↔
      b &&& 0x70#8 = 0x70#8 ∨
      (∃ b1 b2 b3 tl, rest = b1 :: b2 :: b3 :: tl ∧ b.msb = true ∧ b1.msb = true ∧ b2.msb = true ∧ b3.msb = true) ∨
      (rest.length < 3 ∧ ∀ c ∈ b :: rest, c.msb = true)

/-- `unpack` looks at a token's own bytes and at no byte after them (40_token_codec.md R115), and at most at four. -/
def Obligations.UnpackReadsOnlyItsToken : Prop :=
  (∀ (bytes : List Byte) (t : Token), unpack bytes = .ok t → t.size ≤ bytes.length ∧
    ∀ other, unpack (bytes.take t.size ++ other) = .ok t) ∧
  ∀ bytes, unpack (bytes.take 4) = unpack bytes

/-- The first-byte map (30_encoding.md R94), by the value of the first byte. -/
def Obligations.FirstByteMap : Prop :=
  ∀ (b : Byte) (rest : List Byte),
    (b.toNat < 0x40 → unpack (b :: rest) = .ok ⟨.literal, b.toNat, 1⟩) ∧
    (0x40 ≤ b.toNat → b.toNat < 0x50 → unpack (b :: rest) = .ok ⟨.byteRepeat, b.toNat - 0x40, 1⟩) ∧
    (0x50 ≤ b.toNat → b.toNat < 0x60 → unpack (b :: rest) = .ok ⟨.alphaRepeat, b.toNat - 0x50, 1⟩) ∧
    (0x60 ≤ b.toNat → b.toNat < 0x70 → unpack (b :: rest) = .ok ⟨.wordRepeat, b.toNat - 0x60, 1⟩) ∧
    (0x70 ≤ b.toNat → b.toNat < 0x80 → ∃ e, unpack (b :: rest) = .error e) ∧
    (0x80 ≤ b.toNat → b.toNat < 0xC0 → ∀ t, unpack (b :: rest) = .ok t →
      t.kind = .literal ∧ 2 ≤ t.size ∧ t.length >>> (7 * (t.size - 1)) = b.toNat - 0x80) ∧
    (0xC0 ≤ b.toNat → b.toNat < 0xD0 → ∀ t, unpack (b :: rest) = .ok t →
      t.kind = .byteRepeat ∧ 2 ≤ t.size ∧ t.length >>> (7 * (t.size - 1)) = b.toNat - 0xC0) ∧
    (0xD0 ≤ b.toNat → b.toNat < 0xE0 → ∀ t, unpack (b :: rest) = .ok t →
      t.kind = .alphaRepeat ∧ 2 ≤ t.size ∧ t.length >>> (7 * (t.size - 1)) = b.toNat - 0xD0) ∧
    (0xE0 ≤ b.toNat → b.toNat < 0xF0 → ∀ t, unpack (b :: rest) = .ok t →
      t.kind = .wordRepeat ∧ 2 ≤ t.size ∧ t.length >>> (7 * (t.size - 1)) = b.toNat - 0xE0) ∧
    (0xF0 ≤ b.toNat → ∃ e, unpack (b :: rest) = .error e)

/-- Words written out from the wire patterns of 30_encoding.md and the vectors T3, T21, T35, T41, T61, T64 decode to the row
they stand for. -/
def Obligations.WordsDecode : Prop :=
  decode .record [0x3F#8] = .ok (.lit1 63) ∧
  decode .record [0xC0#8, 0x10#8] = .ok (.brep2 16) ∧
  decode .record [0xE0#8, 0x90#8, 0x00#8] = .ok (.wrep3 2048) ∧
  decode .record [0xD0#8, 0x90#8, 0x80#8, 0x00#8] = .ok (.arep4 262144) ∧
  decode .record [0x70#8] = .ok (.reservedWA false 0#4) ∧
  decode .record [0x80#8, 0x80#8, 0x80#8, 0x80#8] = .ok (.malformedExt4 0#7 0#7 0#7 0#7) ∧
  decode .header [0x52#8, 0x4C#8, 0x45#8, 0x2E#8, 0x0B#8, 0x00#8, 0x00#8, 0x00#8] = .ok (.hdr 11#32)

/-! ## A step runs the decoded instruction -/

/-- While a decompressor runs and CUR < IN_LEN, a step is `exec` of the instruction the at most four bytes from CUR decode to;
nothing is added around it (43_decompressor.md R182). -/
def Obligations.StepRunsRecord : Prop :=
  ∀ (s : State) (i : Instr), s.phase = .busy .decompressor → s.cur < s.inLen →
    decode .record (s.window s.cur 4) = .ok i → step s = exec i s

/-- A token that leaves the container: the step takes MalformedToken and nothing else changes (30_encoding.md R92 (c)). -/
def Obligations.TokenLeavingContainerRaises : Prop :=
  ∀ (s : State) (e : DecodeError), s.phase = .busy .decompressor → s.cur < s.inLen →
    decode .record (s.window s.cur 4) = .error e →
    step s = .next { s with result := .fail .malformedToken, phase := .done }

/-- A `decompress` call whose buffer begins with a header runs the row `HDR` on the state in which the buffer is IN, PHASE is BUSY
and the sink is empty (43_decompressor.md R181). The call as the head of `calls` is the model's choice (assumption 4); RESULT is
then the free value of assumption 3, which nothing constrains. -/
def Obligations.StepRunsHeader : Prop :=
  ∀ (s : State) (l : Launch) (rest : List HostCall) (i : Instr), s.free → s.calls = .decompress l :: rest →
    l.overlaps = false → l.input.length < 2 ^ 32 → decode .header (l.input.take 8) = .ok i →
    step s = exec i { s with
      calls := rest, inp := Memory.load 0 l.input, inLen := l.input.length, phase := .busy .decompressor, out := [],
      outCnt := 0, result := Config.unspecifiedResult s.freeIdx, freeIdx := s.freeIdx + 1 }

/-! ## The rows of the opcode table -/

/-- `LIT.1` to `LIT.4` (43_decompressor.md R183): where the payload fits, the next state has the `n` payload bytes appended in
order and CUR past them, and nothing else changed; where it does not, TruncatedRecord is taken and nothing else changed. -/
def Obligations.LitRecordExecutes : Prop :=
  ∀ (s : State) (n : Nat) (f : Instr × Nat), f ∈ litForms n →
    (s.cur + f.2 + n ≤ s.inLen → ∃ v : List Byte,
      exec f.1 s = .next { s with out := s.out ++ v, outCnt := s.outCnt + n, cur := s.cur + f.2 + n } ∧
      v.length = n ∧ ∀ j, j < n → v[j]? = some (s.inByte (s.cur + f.2 + j))) ∧
    (s.inLen < s.cur + f.2 + n →
      exec f.1 s = .next { s with result := .fail .truncatedRecord, phase := .done })

/-- `BREP.1` to `BREP.4` (R184): the payload byte `n` times. -/
def Obligations.BrepRecordExecutes : Prop :=
  ∀ (s : State) (n : Nat) (f : Instr × Nat), f ∈ brepForms n →
    (s.cur + f.2 + 1 ≤ s.inLen → ∃ v : List Byte,
      exec f.1 s = .next { s with out := s.out ++ v, outCnt := s.outCnt + n, cur := s.cur + f.2 + 1 } ∧
      v.length = n ∧ ∀ j, j < n → v[j]? = some (s.inByte (s.cur + f.2))) ∧
    (s.inLen < s.cur + f.2 + 1 →
      exec f.1 s = .next { s with result := .fail .truncatedRecord, phase := .done })

/-- `WREP.1` to `WREP.4` (R185): the four payload bytes `n` times, in payload order. -/
def Obligations.WrepRecordExecutes : Prop :=
  ∀ (s : State) (n : Nat) (f : Instr × Nat), f ∈ wrepForms n →
    (s.cur + f.2 + 4 ≤ s.inLen → ∃ v : List Byte,
      exec f.1 s = .next { s with out := s.out ++ v, outCnt := s.outCnt + 4 * n, cur := s.cur + f.2 + 4 } ∧
      v.length = 4 * n ∧ ∀ j i, j < n → i < 4 → v[4 * j + i]? = some (s.inByte (s.cur + f.2 + i))) ∧
    (s.inLen < s.cur + f.2 + 4 →
      exec f.1 s = .next { s with result := .fail .truncatedRecord, phase := .done })

/-- `AREP.1` to `AREP.4` (R186): `n` pixels, each the shared alpha byte and then its three stored bytes in stored order. -/
def Obligations.ArepRecordExecutes : Prop :=
  ∀ (s : State) (n : Nat) (f : Instr × Nat), f ∈ arepForms n →
    (s.cur + f.2 + 1 + 3 * n ≤ s.inLen → ∃ v : List Byte,
      exec f.1 s = .next { s with out := s.out ++ v, outCnt := s.outCnt + 4 * n, cur := s.cur + f.2 + 1 + 3 * n } ∧
      v.length = 4 * n ∧ ∀ j, j < n →
        v[4 * j]? = some (s.inByte (s.cur + f.2)) ∧
        v[4 * j + 1]? = some (s.inByte (s.cur + f.2 + 1 + 3 * j)) ∧
        v[4 * j + 2]? = some (s.inByte (s.cur + f.2 + 2 + 3 * j)) ∧
        v[4 * j + 3]? = some (s.inByte (s.cur + f.2 + 3 + 3 * j))) ∧
    (s.inLen < s.cur + f.2 + 1 + 3 * n →
      exec f.1 s = .next { s with result := .fail .truncatedRecord, phase := .done })

/-- `RESERVED.WA` and `MALFORMED.EXT4` (30_encoding.md R92): MalformedToken is taken, which writes RESULT and PHASE and nothing
else (60_exceptions.md R230). -/
def Obligations.MalformedRowsRaise : Prop :=
  ∀ (s : State) (ext : Bool) (low : BitVec 4) (b0 b1 b2 b3 : BitVec 7),
    exec (.reservedWA ext low) s = .next { s with result := .fail .malformedToken, phase := .done } ∧
    exec (.malformedExt4 b0 b1 b2 b3) s = .next { s with result := .fail .malformedToken, phase := .done }

/-- `HDR` (43_decompressor.md R181): TOTAL_LEN and CUR are written and nothing else. -/
def Obligations.HeaderRowExecutes : Prop :=
  ∀ (s : State) (t : Word32), exec (.hdr t) s = .next { s with totalLen := t, cur := 8 }

/-- The frame of every row of the table: IN, IN_LEN, CFG.alpha, the host's side and the free value's counter are unchanged, every
byte of the input space reads as before, what was in the sink stays, TOTAL_LEN changes only by `HDR`, and PHASE and RESULT change
only together, to DONE and a failure, when nothing is appended. -/
def Obligations.RowFrame : Prop :=
  ∀ (i : Instr) (s t : State), exec i s = .next t →
    t.inp = s.inp ∧ (∀ a, t.inByte a = s.inByte a) ∧ t.inLen = s.inLen ∧ t.cfgAlpha = s.cfgAlpha ∧
    t.calls = s.calls ∧ t.replies = s.replies ∧ t.freeIdx = s.freeIdx ∧
    (∃ v, t.out = s.out ++ v ∧ t.outCnt = s.outCnt + v.length) ∧
    ((∀ w, i ≠ .hdr w) → t.totalLen = s.totalLen) ∧
    ((t.phase = s.phase ∧ t.result = s.result) ∨
      (t.phase = .done ∧ (∃ k, t.result = .fail k) ∧ t.out = s.out ∧ t.outCnt = s.outCnt ∧ t.cur = s.cur))

/-- Zero-length records (43_decompressor.md R192): nothing is appended and CUR moves by `k`, `k + 1`, `k + 4`, `k + 1`. -/
def Obligations.ZeroLengthRecords : Prop :=
  ∀ (s : State) (f : Instr × Nat),
    (f ∈ litForms 0 → s.cur + f.2 ≤ s.inLen → exec f.1 s = .next { s with cur := s.cur + f.2 }) ∧
    (f ∈ brepForms 0 → s.cur + f.2 + 1 ≤ s.inLen → exec f.1 s = .next { s with cur := s.cur + f.2 + 1 }) ∧
    (f ∈ wrepForms 0 → s.cur + f.2 + 4 ≤ s.inLen → exec f.1 s = .next { s with cur := s.cur + f.2 + 4 }) ∧
    (f ∈ arepForms 0 → s.cur + f.2 + 1 ≤ s.inLen → exec f.1 s = .next { s with cur := s.cur + f.2 + 1 })

/-! ## RunClassifier, for any reader `rd` of a buffer of `len` bytes -/

/-- Bounds of the result (41_run_classifier.md R138). -/
def Obligations.ClassifyStaysInside : Prop :=
  ∀ (rd : Nat → Byte) (len cur : Nat) (alpha : Bool), cur < len →
    1 ≤ (classify rd len cur alpha).length ∧
    cur + span (classify rd len cur alpha).kind (classify rd len cur alpha).length ≤ len

/-- Soundness (R140): the run is not empty, stays inside the buffer, and its repeated bytes, words or alpha bytes are equal. -/
def Obligations.ClassifySound : Prop :=
  ∀ (rd : Nat → Byte) (len cur n : Nat) (alpha : Bool), cur < len →
    (∀ kind, classify rd len cur alpha = ⟨kind, n⟩ → 1 ≤ n ∧ cur + span kind n ≤ len) ∧
    (classify rd len cur alpha = ⟨.byteRepeat, n⟩ → ∀ j, j < n → rd (cur + j) = rd cur) ∧
    (classify rd len cur alpha = ⟨.wordRepeat, n⟩ → ∀ j i, j < n → i < 4 → rd (cur + 4 * j + i) = rd (cur + i)) ∧
    (classify rd len cur alpha = ⟨.alphaRepeat, n⟩ → ∀ j, j < n → rd (cur + 4 * j) = rd cur)

/-- The classifier looks at no byte before the cursor and at none beyond the buffer (R139, 20_memory.md R57). -/
def Obligations.ClassifyReadsAhead : Prop :=
  ∀ (rd rd' : Nat → Byte) (len cur : Nat) (alpha : Bool), cur < len → (∀ a, cur ≤ a → a < len → rd a = rd' a) →
    classify rd len cur alpha = classify rd' len cur alpha

/-- With `CFG.alpha = 0` no AlphaRepeat is returned (R137). -/
def Obligations.NoAlphaWhenDisabled : Prop :=
  ∀ (rd : Nat → Byte) (len cur : Nat), (classify rd len cur false).kind ≠ .alphaRepeat

/-- Step 1 (R132): at an aligned cursor, where `n > 1` is the number of equal words, counting whole words inside the buffer only,
the run is `4 * n` bytes if the word is a broadcast of one byte and `n` words otherwise, whatever follows. -/
def Obligations.WordStepExact : Prop :=
  ∀ (rd : Nat → Byte) (len cur n : Nat) (alpha : Bool), cur % 4 = 0 → 2 ≤ n → cur + 4 * n ≤ len →
    (∀ j i, j < n → i < 4 → rd (cur + 4 * j + i) = rd (cur + i)) →
    (cur + 4 * n + 4 ≤ len → ∃ i, i < 4 ∧ rd (cur + 4 * n + i) ≠ rd (cur + i)) →
    ((∀ i, i < 4 → rd (cur + i) = rd cur) → classify rd len cur alpha = ⟨.byteRepeat, 4 * n⟩) ∧
    ((∃ i, i < 4 ∧ rd (cur + i) ≠ rd cur) → classify rd len cur alpha = ⟨.wordRepeat, n⟩)

/-- Step 2 (R133): where step 1 does not classify and exactly `c > 2` bytes are equal, the run is those `c` bytes. -/
def Obligations.ByteStepExact : Prop :=
  ∀ (rd : Nat → Byte) (len cur c : Nat) (alpha : Bool),
    (cur % 4 = 0 → cur + 8 ≤ len → ∃ i, i < 4 ∧ rd (cur + 4 + i) ≠ rd (cur + i)) →
    3 ≤ c → cur + c ≤ len → (∀ j, j < c → rd (cur + j) = rd cur) →
    (cur + c < len → rd (cur + c) ≠ rd cur) →
    classify rd len cur alpha = ⟨.byteRepeat, c⟩

/-- Step 3 (R134): where steps 1 and 2 do not classify, the cursor is aligned and `m > 2` pixels share the alpha byte, none after
the first beginning an identical pair, and the count cannot go on, the run is those `m` pixels. -/
def Obligations.AlphaStepExact : Prop :=
  ∀ (rd : Nat → Byte) (len cur m : Nat), cur % 4 = 0 →
    (cur + 8 ≤ len → ∃ i, i < 4 ∧ rd (cur + 4 + i) ≠ rd (cur + i)) →
    ¬ (rd (cur + 1) = rd cur ∧ rd (cur + 2) = rd cur) →
    3 ≤ m → cur + 4 * m ≤ len → (∀ j, j < m → rd (cur + 4 * j) = rd cur) →
    (∀ j, 1 ≤ j → j < m → cur + 4 * j + 8 ≤ len → ∃ i, i < 4 ∧ rd (cur + 4 * j + i) ≠ rd (cur + 4 * j + 4 + i)) →
    (cur + 4 * m + 4 ≤ len → rd (cur + 4 * m) ≠ rd cur ∨
      (cur + 4 * m + 8 ≤ len ∧ ∀ i, i < 4 → rd (cur + 4 * m + i) = rd (cur + 4 * m + 4 + i))) →
    classify rd len cur true = ⟨.alphaRepeat, m⟩

/-- Step 4 (R135, R136): where steps 1 to 3 do not classify, the literal ends at the earliest index `i` at which a trigger holds,
less that trigger's lookback, (a) before (b) before (c); with no trigger it is the rest of the buffer. -/
def Obligations.LiteralStepExact : Prop :=
  ∀ (rd : Nat → Byte) (len cur : Nat) (alpha : Bool),
    classifyWord rd len cur = none → classifyByte rd len cur = none → classifyAlpha rd len cur alpha = none →
    let a : Nat → Prop := fun i => rd i = rd (i - 1) ∧ rd (i - 1) = rd (i - 2)
    let b : Nat → Prop := fun i => (i + 1) % 4 = 0 ∧ cur + 7 ≤ i ∧ ∀ j, j < 4 → rd (i - 3 + j) = rd (i - 7 + j)
    let c : Nat → Prop := fun i => alpha = true ∧ (i + 1) % 4 = 0 ∧ cur + 15 ≤ i ∧
      rd (i - 3) = rd (i - 7) ∧ rd (i - 7) = rd (i - 11)
    (∀ i, cur + 3 ≤ i → i < len → (∀ j, cur + 3 ≤ j → j < i → ¬ a j ∧ ¬ b j ∧ ¬ c j) →
      (a i → classify rd len cur alpha = ⟨.literal, i - cur - 2⟩) ∧
      (¬ a i → b i → classify rd len cur alpha = ⟨.literal, i - cur - 7⟩) ∧
      (¬ a i → ¬ b i → c i → classify rd len cur alpha = ⟨.literal, i - cur - 11⟩)) ∧
    ((∀ i, cur + 3 ≤ i → i < len → ¬ a i ∧ ¬ b i ∧ ¬ c i) → classify rd len cur alpha = ⟨.literal, len - cur⟩)

/-! ## The compressor -/

/-- Start step (42_compressor.md R161): a `compress` call (a head of `calls`: the model's choice, assumption 4) emits the 8 header
bytes and puts CUR at 0. -/
def Obligations.CompressStartEmitsHeader : Prop :=
  ∀ (s : State) (l : Launch) (rest : List HostCall), s.free → s.calls = .compress l :: rest → l.overlaps = false →
    l.input.length < 2 ^ 32 → ∃ t, step s = .next t ∧
      t.phase = .busy .compressor ∧ t.cur = 0 ∧ t.outCnt = 8 ∧ t.inLen = l.input.length ∧
      (∀ a, a < l.input.length → some (t.inByte a) = l.input[a]?) ∧
      t.out.take 4 = [0x52#8, 0x4C#8, 0x45#8, 0x2E#8] ∧ t.out.length = 8 ∧
      ((t.out.drop 4).map BitVec.toNat) =
        [l.input.length % 256, l.input.length / 256 % 256, l.input.length / 65536 % 256, l.input.length / 16777216] ∧
      t.cfgAlpha = s.cfgAlpha ∧ t.totalLen = s.totalLen ∧ t.calls = rest ∧ t.replies = s.replies

/-- Emit `LIT` (R163): a literal run at CUR that fits a token appends `pack(LIT, n)` and the `n` bytes at CUR. -/
def Obligations.CompressorEmitsLit : Prop :=
  ∀ (s : State) (n : Nat), s.phase = .busy .compressor → s.cur < s.inLen → s.nextRun = ⟨.literal, n⟩ →
    (n ≤ 2 ^ 27 - 1 → ∃ token v, pack .literal n = .ok token ∧
      step s = .next { s with out := s.out ++ token ++ v, outCnt := s.outCnt + token.length + n, cur := s.cur + n } ∧
      v.length = n ∧ ∀ j, j < n → v[j]? = some (s.inByte (s.cur + j))) ∧
    (2 ^ 27 - 1 < n → step s = .next { s with result := .fail .overflow, phase := .done })

/-- Emit `BREP` (R164): `pack(BREP, n)` and the byte at CUR. -/
def Obligations.CompressorEmitsBrep : Prop :=
  ∀ (s : State) (n : Nat), s.phase = .busy .compressor → s.cur < s.inLen → s.nextRun = ⟨.byteRepeat, n⟩ →
    (n ≤ 2 ^ 25 - 1 → ∃ token, pack .byteRepeat n = .ok token ∧
      step s = .next { s with out := s.out ++ token ++ [s.inByte s.cur],
                              outCnt := s.outCnt + token.length + 1, cur := s.cur + n }) ∧
    (2 ^ 25 - 1 < n → step s = .next { s with result := .fail .overflow, phase := .done })

/-- Emit `WREP` (R165): `pack(WREP, n)` and the four bytes at CUR in input order. -/
def Obligations.CompressorEmitsWrep : Prop :=
  ∀ (s : State) (n : Nat), s.phase = .busy .compressor → s.cur < s.inLen → s.nextRun = ⟨.wordRepeat, n⟩ →
    (n ≤ 2 ^ 25 - 1 → ∃ token, pack .wordRepeat n = .ok token ∧
      step s = .next { s with
        out := s.out ++ token ++
          [s.inByte s.cur, s.inByte (s.cur + 1), s.inByte (s.cur + 2), s.inByte (s.cur + 3)],
        outCnt := s.outCnt + token.length + 4, cur := s.cur + 4 * n }) ∧
    (2 ^ 25 - 1 < n → step s = .next { s with result := .fail .overflow, phase := .done })

/-- Emit `AREP` (R166): `pack(AREP, n)`, the alpha byte at CUR, and bytes 1, 2, 3 of each of the `n` pixels in order; only where
CFG.alpha is 1. -/
def Obligations.CompressorEmitsArep : Prop :=
  ∀ (s : State) (n : Nat), s.phase = .busy .compressor → s.cur < s.inLen → s.nextRun = ⟨.alphaRepeat, n⟩ →
    s.cfgAlpha = true ∧
    (n ≤ 2 ^ 25 - 1 → ∃ token v, pack .alphaRepeat n = .ok token ∧
      step s = .next { s with out := s.out ++ token ++ v, outCnt := s.outCnt + token.length + (1 + 3 * n),
                              cur := s.cur + 4 * n } ∧
      v.length = 1 + 3 * n ∧ v[0]? = some (s.inByte s.cur) ∧
      ∀ j i, j < n → i < 3 → v[1 + 3 * j + i]? = some (s.inByte (s.cur + 4 * j + 1 + i))) ∧
    (2 ^ 25 - 1 < n → step s = .next { s with result := .fail .overflow, phase := .done })

/-- End step (R169): at CUR = IN_LEN the compressor ends with the count of bytes written, and nothing else changes. -/
def Obligations.CompressorEnds : Prop :=
  ∀ s : State, s.phase = .busy .compressor → s.cur = s.inLen →
    step s = .next { s with result := .ok s.outCnt, phase := .done }

/-! ## The decompressor -/

/-- Start step (43_decompressor.md R181, R194): a buffer shorter than 8 bytes fails with LengthError whatever it holds, a wrong
magic with InvalidHeader, each with an empty sink; else TOTAL_LEN is the little-endian value of bytes 4..7 and CUR is 8. The call
as the head of `calls` is the model's choice (assumption 4), and so is IN after a start step that fails (assumption 23). -/
def Obligations.DecompressStartChecksHeader : Prop :=
  ∀ (s : State) (l : Launch) (rest : List HostCall), s.free → s.calls = .decompress l :: rest → l.overlaps = false →
    l.input.length < 2 ^ 32 → ∃ t, step s = .next t ∧ t.out = [] ∧ t.outCnt = 0 ∧ t.inLen = l.input.length ∧
      (∀ a, a < l.input.length → some (t.inByte a) = l.input[a]?) ∧
      t.cfgAlpha = s.cfgAlpha ∧ t.calls = rest ∧ t.replies = s.replies ∧
      (l.input.length < 8 → t.phase = .done ∧ t.result = .fail .lengthError) ∧
      (8 ≤ l.input.length → l.input.take 4 ≠ [0x52#8, 0x4C#8, 0x45#8, 0x2E#8] →
        t.phase = .done ∧ t.result = .fail .invalidHeader) ∧
      (8 ≤ l.input.length → l.input.take 4 = [0x52#8, 0x4C#8, 0x45#8, 0x2E#8] →
        t.phase = .busy .decompressor ∧ t.cur = 8 ∧
        t.totalLen.toNat = (t.inByte 4).toNat + 256 * (t.inByte 5).toNat + 65536 * (t.inByte 6).toNat +
          16777216 * (t.inByte 7).toNat)

/-- End step (R188): at CUR = IN_LEN the exact OUT_CNT is compared with TOTAL_LEN; nothing but RESULT and PHASE changes. -/
def Obligations.DecompressorEnds : Prop :=
  ∀ s : State, s.phase = .busy .decompressor → s.cur = s.inLen →
    (s.outCnt = s.totalLen.toNat → step s = .next { s with result := .ok s.outCnt, phase := .done }) ∧
    (s.outCnt ≠ s.totalLen.toNat → step s = .next { s with result := .fail .lengthMismatch, phase := .done })

/-- A decompressor that succeeds has consumed the whole container and produced exactly the declared length (R189). -/
def Obligations.DecompressSuccessMatchesTotal : Prop :=
  ∀ (s t : State) (c : Nat), s.Inv → s.phase = .busy .decompressor → step s = .next t → t.phase = .done →
    t.result = .ok c → c = t.totalLen.toNat ∧ c = t.out.length ∧ t.cur = t.inLen

/-- The decompressor does not honour CFG.alpha (30_encoding.md R96, 43_decompressor.md R180). -/
def Obligations.DecompressorIgnoresAlpha : Prop :=
  ∀ (s : State) (b : Bool), s.phase = .busy .decompressor →
    step { s with cfgAlpha := b } = mapNext (fun t => { t with cfgAlpha := b }) (step s)

/-- Until the container's end the decompressor does not look at TOTAL_LEN: no early stop (R191). -/
def Obligations.TotalUnreadBeforeEnd : Prop :=
  ∀ (s : State) (v : Word32), s.phase = .busy .decompressor → s.cur < s.inLen →
    step { s with totalLen := v } = mapNext (fun t => { t with totalLen := v }) (step s)

/-! ## The host interface -/

/-- `header` and `declared_length` (44_host_interface.md R201, R202): LengthError below 8 bytes, else the little-endian value,
unvalidated; no register is written. That calls and answers stand in `calls` and `replies` is the model's choice (assumptions 4
and 5). -/
def Obligations.QueriesAnswer : Prop :=
  ∀ (s : State) (buf : List Byte) (rest : List HostCall), s.free → buf.length < 2 ^ 32 →
    (s.calls = .header buf :: rest → ∃ r, step s = .next { s with calls := rest, replies := s.replies ++ [r] } ∧
      (buf.length < 8 → r = .fail .lengthError) ∧
      ∀ m0 m1 m2 m3 tl, buf = m0 :: m1 :: m2 :: m3 :: tl → 8 ≤ buf.length →
        r = .value (m0.toNat + 256 * m1.toNat + 65536 * m2.toNat + 16777216 * m3.toNat)) ∧
    (s.calls = .declaredLength buf :: rest → ∃ r, step s = .next { s with calls := rest, replies := s.replies ++ [r] } ∧
      (buf.length < 8 → r = .fail .lengthError) ∧
      ∀ m0 m1 m2 m3 t0 t1 t2 t3 tl, buf = m0 :: m1 :: m2 :: m3 :: t0 :: t1 :: t2 :: t3 :: tl →
        r = .value (t0.toNat + 256 * t1.toNat + 65536 * t2.toNat + 16777216 * t3.toNat))

/-- The host writes CFG.alpha only while no operation runs, and that is all the write does (10_state.md R21); that it may in DONE as
in IDLE is the model's choice (assumption 20). -/
def Obligations.HostWritesAlpha : Prop :=
  ∀ (s : State) (b : Bool) (rest : List HostCall), s.calls = .setAlpha b :: rest →
    (s.free → step s = .next { s with cfgAlpha := b, calls := rest }) ∧
    ∀ a t, s.phase = .busy a → step s = .next t → t.cfgAlpha = s.cfgAlpha ∧ t.calls = s.calls

/-- Launches that are given no meaning: a buffer of 2^32 bytes or more (10_state.md R22), for every entry point, and a sink that
overlaps its input (20_memory.md R67). The refusals' names and the bound for the two queries are the model's choice (assumptions 6
and 7). -/
def Obligations.LaunchRefusals : Prop :=
  ∀ (s : State) (l : Launch) (rest : List HostCall), s.free →
    (2 ^ 32 ≤ l.input.length →
      s.calls ∈ [.compress l :: rest, .decompress l :: rest, .header l.input :: rest, .declaredLength l.input :: rest] →
      step s = .refused .launchTooLong) ∧
    (l.input.length < 2 ^ 32 → l.overlaps = true → s.calls ∈ [.compress l :: rest, .decompress l :: rest] →
      step s = .refused .launchOverlap)

/-- With no move of the host and no operation running nothing happens (the model's reading of 10_state.md R28; assumption 4). -/
def Obligations.IdleWaits : Prop :=
  ∀ s : State, s.free → s.calls = [] → step s = .next s

/-- RESULT, PHASE and OUT stay until the host starts the next operation (R28: failures are sticky, a result is final); the host's
moves between are those of assumption 4. That IN and IN_LEN stay too is the model's choice (assumption 23). -/
def Obligations.ResultStaysUntilNextStart : Prop :=
  ∀ (s t : State), s.free → step s = .next t →
    (∀ l rest, s.calls ≠ .compress l :: rest ∧ s.calls ≠ .decompress l :: rest) →
    t.result = s.result ∧ t.phase = s.phase ∧ t.out = s.out ∧ t.outCnt = s.outCnt ∧ t.cur = s.cur ∧
      t.totalLen = s.totalLen ∧ t.inp = s.inp ∧ t.inLen = s.inLen

/-- The result convention (44_host_interface.md R205, 60_exceptions.md R235), for every ERR_CODE the spec allows: successes are
the non-negative counts, failures are negative and pairwise different, so the integer determines the result. -/
def Obligations.HostIntegerConvention : Prop :=
  ∀ (e : Config.ErrCode) (r q : Result),
    (∀ c, r = .ok c → Config.hostInt e r = (c : Int) ∧ 0 ≤ Config.hostInt e r) ∧
    (∀ k, r = .fail k → Config.hostInt e r < 0) ∧
    (Config.hostInt e r = Config.hostInt e q → r = q)

/-- The input space of a loaded buffer reads back exactly the buffer, first byte at index 0 (10_state.md R22, 20_memory.md R50). -/
def Obligations.LoadedBufferReadsBack : Prop :=
  ∀ (buf : List Byte) (a : Nat), a < buf.length → some (Memory.read (Memory.load 0 buf) a) = buf[a]?

/-! ## Whole-machine rules -/

/-- After power-on reset (70_reset_and_hazards.md R250; the values 10_state.md R34 gives). -/
def Obligations.ResetValues : Prop :=
  State.reset.phase = .idle ∧ State.reset.cfgAlpha = true ∧ State.reset.out = [] ∧ State.reset.outCnt = 0

/-- The invariant holds at reset. -/
def Obligations.ResetKeepsInv : Prop := State.reset.Inv ∧ State.reset.OutBound

/-- Every step keeps the invariant, from every state that meets it. -/
def Obligations.StepKeepsInv : Prop :=
  ∀ s t : State, s.Inv → step s = .next t → t.Inv

/-- Every step keeps the bounds on OUT_CNT (10_state.md R24, 42_compressor.md R171). -/
def Obligations.StepKeepsOutBound : Prop :=
  ∀ s t : State, s.Inv → s.OutBound → step s = .next t → t.OutBound

/-- No step faults from a state that meets the invariant: the run a compressor emits lies inside IN (42_compressor.md R162,
41_run_classifier.md R138), and CUR is not beyond IN_LEN while an operation runs (42_compressor.md R172, 43_decompressor.md R193).
A step of the host may still refuse. The two faults are the model's own (assumption 16). -/
def Obligations.StepNeverFaults : Prop :=
  ∀ (s : State) (r : Fault), s.Inv → step s ≠ .fault r

/-- A running operation never refuses: every step of it gives a next state (70_reset_and_hazards.md R256). -/
def Obligations.BusyStepAnswersNext : Prop :=
  ∀ (s : State) (a : Agent), s.Inv → s.phase = .busy a → ∃ t, step s = .next t

/-- A step of a running operation depends on no byte of the input space at or beyond IN_LEN (20_memory.md R57). -/
def Obligations.BusyStepReadsInside : Prop :=
  ∀ (s : State) (a : Agent) (m : Memory), s.phase = .busy a → (∀ i, i < s.inLen → m.read i = s.inp.read i) →
    step { s with inp := m } = mapNext (fun t => { t with inp := m }) (step s)

/-- What a step of a running operation leaves alone (20_memory.md R58, R59, 10_state.md R21, R23, 70_reset_and_hazards.md R253): IN,
CFG.alpha, TOTAL_LEN and the host's side; the sink only grows; CUR grows strictly while the operation goes on, and otherwise only
RESULT and PHASE change (60_exceptions.md R230, R231). That the step that ends the operation leaves IN and IN_LEN is the model's
choice (assumption 23). -/
def Obligations.BusyStepFrame : Prop :=
  ∀ (s t : State) (a : Agent), s.Inv → s.phase = .busy a → step s = .next t →
    t.inp = s.inp ∧ t.inLen = s.inLen ∧ t.cfgAlpha = s.cfgAlpha ∧ t.totalLen = s.totalLen ∧ t.calls = s.calls ∧
    t.replies = s.replies ∧ t.freeIdx = s.freeIdx ∧ s.out <+: t.out ∧
    ((t.phase = .busy a ∧ s.cur < t.cur ∧ t.cur ≤ t.inLen ∧ t.result = s.result) ∨
      t = { s with phase := .done, result := t.result })

/-- Which failures each agent can take (60_exceptions.md R228): the compressor only Overflow (Unknown is unreachable), the running
decompressor only MalformedToken, TruncatedRecord and, at the end, LengthMismatch. -/
def Obligations.FailureKindsByAgent : Prop :=
  ∀ (s t : State) (k : Failure), step s = .next t → t.phase = .done → t.result = .fail k →
    (s.phase = .busy .compressor → k = .overflow) ∧
    (s.phase = .busy .decompressor →
      k = .malformedToken ∨ k = .truncatedRecord ∨ (k = .lengthMismatch ∧ s.cur = s.inLen))

/-- Every operation ends (70_reset_and_hazards.md R256, 42_compressor.md R172, 43_decompressor.md R193): from any state of a
running operation, within one step per byte left and one more, PHASE is DONE. -/
def Obligations.EveryOperationEnds : Prop :=
  ∀ (s : State) (a : Agent), s.Inv → s.phase = .busy a →
    ∃ k t, k ≤ (s.inLen - s.cur) + 1 ∧ Sys2Proof.core.run k s = .next t ∧ t.phase = .done

/-- No state carries from one operation to the next (10_state.md R31, 70_reset_and_hazards.md R250, R251): two instances with any
leftover registers, the same CFG.alpha and the same calls (assumption 4), the first a launch, agree after every number of steps
from then on, and the same answers have been appended to `replies` (assumption 5) on both. -/
def Obligations.LeftoverStateUnobservable : Prop :=
  ∀ (s t : State) (l : Launch) (rest : List HostCall) (k : Nat), s.free → t.free → s.cfgAlpha = t.cfgAlpha →
    s.calls = t.calls → (s.calls = .compress l :: rest ∨ s.calls = .decompress l :: rest) →
    OutcomesAgree (Sys2Proof.core.run (k + 1) s) (Sys2Proof.core.run (k + 1) t) ∧
    ∀ s' t', Sys2Proof.core.run (k + 1) s = .next s' → Sys2Proof.core.run (k + 1) t = .next t' →
      ∃ answers, s'.replies = s.replies ++ answers ∧ t'.replies = t.replies ++ answers

/-- Round trip (43_decompressor.md R190): what `compress` made of `B` on one instance, `decompress` on any instance, whatever either's
CFG.alpha, restores (calls as in assumption 4). The second launch needs a container below 2^32 bytes (10_state.md R22). -/
def Obligations.RoundTrip : Prop :=
  ∀ (s t s' : State) (B : List Byte) (c : Nat), s.free → s.calls = [.compress ⟨B, false⟩] → B.length < 2 ^ 32 →
    RunsTo s t → t.result = .ok c → t.out.length < 2 ^ 32 → s'.free → s'.calls = [.decompress ⟨t.out, false⟩] →
    c = t.out.length ∧ ∃ u, RunsTo s' u ∧ u.result = .ok B.length ∧ u.out = B
end

