-- ==== Sys2Proof/Laws/Bytes.lean ====
section
/-!
SUPPORT. The bytes of a token: its flag bits and length groups, read and built (30_encoding.md R84 to R88), and the bytes of
`tokenBytes` written out.
-/

namespace Sys2Proof

/-- `is_extended` is bit 7 (R86). -/
theorem isExtended_eq_msb (b : Byte) : isExtended b = b.msb := by revert b; decide

/-- The reserved first bytes by their bits 6, 5, 4 (R92 (a)). -/
theorem isReserved_iff (b : Byte) : isReserved b = true ↔ b &&& 0x70#8 = 0x70#8 := by revert b; decide

/-- A continuation group has 7 bits (R86). -/
theorem contGroup_lt (b : Byte) : contGroup b < 128 := by revert b; decide

/-- A continuation byte holds the low 7 bits of the value given. -/
theorem contByte_eq (ext : Bool) (v : Nat) : contByte ext v = contByte ext (v % 128) := by
  unfold contByte
  rw [show (0x7F : Nat) = 2 ^ 7 - 1 from rfl, Nat.and_two_pow_sub_one_eq_mod, Nat.and_two_pow_sub_one_eq_mod]
  simp

/-- The continuation bytes, read back. -/
theorem contByte_fields : ∀ (ext : Bool) (g : Fin 128), isExtended (contByte ext g) = ext ∧ contGroup (contByte ext g) = g := by
  decide

/-- The flag of a built continuation byte. -/
@[simp] theorem isExtended_contByte (ext : Bool) (v : Nat) : isExtended (contByte ext v) = ext := by
  rw [contByte_eq]; exact (contByte_fields ext ⟨v % 128, Nat.mod_lt _ (by decide)⟩).1

/-- The group of a built continuation byte. -/
@[simp] theorem contGroup_contByte (ext : Bool) (v : Nat) : contGroup (contByte ext v) = v % 128 := by
  rw [contByte_eq]; exact (contByte_fields ext ⟨v % 128, Nat.mod_lt _ (by decide)⟩).2

/-- The first bytes of a literal, read back. -/
theorem firstByte_fields_literal : ∀ (ext : Bool) (g : Fin 64),
    (isExtended (firstByte .literal ext g) = ext ∧ firstKind (firstByte .literal ext g) = .literal ∧
      isReserved (firstByte .literal ext g) = false ∧ firstGroup (firstByte .literal ext g) = g) := by
  decide

/-- The first bytes of a repeat, read back. -/
theorem firstByte_fields_repeat : ∀ (k : Fin 3) (ext : Bool) (g : Fin 16),
    let kind : Kind := match k with | 0 => .byteRepeat | 1 => .wordRepeat | 2 => .alphaRepeat
    (isExtended (firstByte kind ext g) = ext ∧ firstKind (firstByte kind ext g) = kind ∧
      isReserved (firstByte kind ext g) = false ∧ firstGroup (firstByte kind ext g) = g) := by
  decide

/-- The fields of a built first byte: flag, kind, not reserved, group. -/
theorem firstByte_fields (kind : Kind) (ext : Bool) (g : Nat) (hg : g < 2 ^ kind.firstBits) :
    isExtended (firstByte kind ext g) = ext ∧ firstKind (firstByte kind ext g) = kind ∧
      isReserved (firstByte kind ext g) = false ∧ firstGroup (firstByte kind ext g) = g := by
  cases kind
  · exact firstByte_fields_literal ext ⟨g, hg⟩
  · exact firstByte_fields_repeat 0 ext ⟨g, hg⟩
  · exact firstByte_fields_repeat 1 ext ⟨g, hg⟩
  · exact firstByte_fields_repeat 2 ext ⟨g, hg⟩

/-- The other way: a first byte that is not reserved is the one its fields build. -/
theorem firstByte_of_fields (b : Byte) (h : isReserved b = false) :
    firstByte (firstKind b) (isExtended b) (firstGroup b) = b ∧ firstGroup b < 2 ^ (firstKind b).firstBits := by
  revert h; revert b; decide

/-- A continuation byte is the one its fields build. -/
theorem contByte_of_fields (b : Byte) : contByte (isExtended b) (contGroup b) = b := by
  revert b; decide

/-- One round of R88: the next group goes in below. -/
theorem fold_group (len g : Nat) (h : g < 128) : (len <<< 7) ||| g = len * 128 + g := by
  rw [← Nat.shiftLeft_add_eq_or_of_lt (i := 7) h len, Nat.shiftLeft_eq]

/-- The 1-byte token. -/
theorem tokenBytes_one (kind : Kind) (n : Nat) : tokenBytes kind 1 n = [firstByte kind false n] := by
  simp [tokenBytes]

/-- The 2-byte token. -/
theorem tokenBytes_two (kind : Kind) (n : Nat) :
    tokenBytes kind 2 n = [firstByte kind true (n >>> 7), contByte false n] := by
  simp [tokenBytes]

/-- The 3-byte token. -/
theorem tokenBytes_three (kind : Kind) (n : Nat) :
    tokenBytes kind 3 n = [firstByte kind true (n >>> 14), contByte true (n >>> 7), contByte false n] := by
  simp [tokenBytes, List.range']

/-- The 4-byte token. -/
theorem tokenBytes_four (kind : Kind) (n : Nat) :
    tokenBytes kind 4 n =
      [firstByte kind true (n >>> 21), contByte true (n >>> 14), contByte true (n >>> 7), contByte false n] := by
  simp [tokenBytes, List.range']

/-- A token has as many bytes as asked, and at least one. -/
@[simp] theorem tokenBytes_length (kind : Kind) (k n : Nat) : (tokenBytes kind k n).length = k - 1 + 1 := by
  simp [tokenBytes]

/-- `LE32` has four bytes. -/
@[simp] theorem leBytes_length (v : Nat) : (leBytes v).length = 4 := rfl

/-- The magic has four bytes. -/
@[simp] theorem magic_length : magic.length = 4 := rfl

end Sys2Proof
end

