-- ==== Sys2Proof/Laws/Classifier.lean ====
section
/-!
SUPPORT. The classifier's loops and tests (41_run_classifier.md R131 to R136), each said once in terms of the bytes.
-/

namespace Sys2Proof.Machine

/-- Everything a counting loop does. -/
theorem countWhile_spec (p : Nat → Bool) (fuel n : Nat) :
    n ≤ countWhile p fuel n ∧ countWhile p fuel n ≤ n + fuel ∧ (∀ j, n ≤ j → j < countWhile p fuel n → p j = true) ∧
    (countWhile p fuel n < n + fuel → p (countWhile p fuel n) = false) := by
  induction fuel generalizing n with
  | zero => exact ⟨Nat.le_refl _, Nat.le_refl _, fun j h1 h2 => by simp only [countWhile] at h2; omega, fun h => by simp only [countWhile] at h; omega⟩
  | succ fuel ih =>
    simp only [countWhile]
    cases hp : p n with
    | false => simp only [Bool.false_eq_true, if_false]; exact ⟨Nat.le_refl _, by omega, fun j h1 h2 => by omega, fun _ => hp⟩
    | true =>
      simp only [if_true]
      obtain ⟨a, b, c, d⟩ := ih (n + 1)
      refine ⟨by omega, by omega, fun j h1 h2 => ?_, fun h => d (by omega)⟩
      by_cases hj : j = n
      · rw [hj]; exact hp
      · exact c j (by omega) h2

/-- The count is `r` where the condition holds below `r` and fails at `r`. -/
theorem countWhile_eq (p : Nat → Bool) (fuel n r : Nat) (h1 : n ≤ r) (h2 : r < n + fuel) (h3 : ∀ j, n ≤ j → j < r → p j = true)
    (h4 : p r = false) : countWhile p fuel n = r := by
  obtain ⟨a, b, c, d⟩ := countWhile_spec p fuel n
  rcases Nat.lt_trichotomy (countWhile p fuel n) r with h | h | h
  · have := d (by omega); rw [h3 _ a h] at this; cases this
  · exact h
  · rw [c r h1 h] at h4; cases h4

/-- Equal conditions give equal counts. -/
theorem countWhile_congr (p q : Nat → Bool) (fuel n : Nat) (h : ∀ j, n ≤ j → p j = q j) :
    countWhile p fuel n = countWhile q fuel n := by
  induction fuel generalizing n with
  | zero => rfl
  | succ fuel ih => simp only [countWhile, h n (Nat.le_refl _), ih (n + 1) (fun j hj => h j (by omega))]

/-- Equal words, byte by byte (R131). -/
theorem sameWord_iff (rd : Nat → Byte) (a b : Nat) : sameWord rd a b = true ↔ ∀ i, i < 4 → rd (a + i) = rd (b + i) := by
  simp only [sameWord, Bool.and_eq_true, beq_iff_eq]
  constructor
  · rintro ⟨⟨⟨h0, h1⟩, h2⟩, h3⟩ i hi
    obtain rfl | rfl | rfl | rfl : i = 0 ∨ i = 1 ∨ i = 2 ∨ i = 3 := by omega
    all_goals assumption
  · intro h; exact ⟨⟨⟨h 0 (by omega), h 1 (by omega)⟩, h 2 (by omega)⟩, h 3 (by omega)⟩

/-- Different words differ in some byte. -/
theorem sameWord_false_iff (rd : Nat → Byte) (a b : Nat) : sameWord rd a b = false ↔ ∃ i, i < 4 ∧ rd (a + i) ≠ rd (b + i) := by
  rw [← Bool.not_eq_true, sameWord_iff]; push Not; rfl

/-- A broadcast word, byte by byte (R131). -/
theorem broadcast_iff (rd : Nat → Byte) (a : Nat) : broadcast rd a = true ↔ ∀ i, i < 4 → rd (a + i) = rd a := by
  simp only [broadcast, Bool.and_eq_true, beq_iff_eq]
  constructor
  · rintro ⟨⟨h0, h1⟩, h2⟩ i hi
    obtain rfl | rfl | rfl | rfl : i = 0 ∨ i = 1 ∨ i = 2 ∨ i = 3 := by omega
    · rfl
    · exact h0.symm
    · rw [← h1, h0]
    · rw [← h2, ← h1, h0]
  · intro h
    have h1 := h 1 (by omega); have h2 := h 2 (by omega); have h3 := h 3 (by omega)
    rw [h1, h2, h3]; exact ⟨⟨rfl, rfl⟩, rfl⟩

/-- Alignment from index 0 (R131). -/
@[simp] theorem aligned_iff (x : Nat) : aligned x = true ↔ x % 4 = 0 := by simp [aligned]

/-- The condition of step 1's loop (R132). -/
theorem moreWords_iff (rd : Nat → Byte) (len cur n : Nat) : moreWords rd len cur n = true ↔ cur + 4 * n + 4 ≤ len ∧ ∀ i, i < 4 → rd (cur + 4 * n + i) = rd (cur + i) := by
  simp [moreWords, sameWord_iff]

/-- The condition of step 2's loop (R133). -/
theorem moreBytes_iff (rd : Nat → Byte) (len cur n : Nat) : moreBytes rd len cur n = true ↔ cur + n < len ∧ rd (cur + n) = rd cur := by
  simp [moreBytes]

/-- The condition of step 3's loop (R134). -/
theorem morePixels_iff (rd : Nat → Byte) (len cur m : Nat) : morePixels rd len cur m = true ↔
    cur + 4 * m + 4 ≤ len ∧ rd (cur + 4 * m) = rd cur ∧
    (cur + 4 * m + 8 ≤ len → ∃ i, i < 4 ∧ rd (cur + 4 * m + i) ≠ rd (cur + 4 * m + 4 + i)) := by
  simp only [morePixels, Bool.and_eq_true, decide_eq_true_eq, beq_iff_eq, Bool.not_eq_true', Bool.and_eq_false_iff,
    decide_eq_false_iff_not, sameWord_false_iff, and_assoc]
  tauto

/-- Trigger (a) (R135). -/
theorem triggerByte_iff (rd : Nat → Byte) (i : Nat) : triggerByte rd i = true ↔ rd i = rd (i - 1) ∧ rd (i - 1) = rd (i - 2) := by
  simp [triggerByte]

/-- Trigger (b) (R135). -/
theorem triggerWord_iff (rd : Nat → Byte) (cur i : Nat) : triggerWord rd cur i = true ↔
    (i + 1) % 4 = 0 ∧ cur + 7 ≤ i ∧ ∀ j, j < 4 → rd (i - 3 + j) = rd (i - 7 + j) := by
  simp [triggerWord, sameWord_iff, and_assoc]

/-- Trigger (c) (R135). -/
theorem triggerAlpha_iff (rd : Nat → Byte) (cur i : Nat) (alpha : Bool) : triggerAlpha rd cur alpha i = true ↔
    alpha = true ∧ (i + 1) % 4 = 0 ∧ cur + 15 ≤ i ∧ rd (i - 3) = rd (i - 7) ∧ rd (i - 7) = rd (i - 11) := by
  simp [triggerAlpha, and_assoc]; tauto

/-- Everything the literal scan does: no trigger anywhere, or the earliest one. -/
theorem scanLiteral_cases (rd : Nat → Byte) (cur : Nat) (alpha : Bool) (count i : Nat) :
    (scanLiteral rd cur alpha count i = none ∧ ∀ j, i ≤ j → j < i + count →
      triggerByte rd j = false ∧ triggerWord rd cur j = false ∧ triggerAlpha rd cur alpha j = false) ∨
    (∃ j, i ≤ j ∧ j < i + count ∧ (∀ h, i ≤ h → h < j →
      triggerByte rd h = false ∧ triggerWord rd cur h = false ∧ triggerAlpha rd cur alpha h = false) ∧
      ((triggerByte rd j = true ∧ scanLiteral rd cur alpha count i = some (j - cur - 2)) ∨
       (triggerByte rd j = false ∧ triggerWord rd cur j = true ∧ scanLiteral rd cur alpha count i = some (j - cur - 7)) ∨
       (triggerByte rd j = false ∧ triggerWord rd cur j = false ∧ triggerAlpha rd cur alpha j = true ∧
        scanLiteral rd cur alpha count i = some (j - cur - 11)))) := by
  induction count generalizing i with
  | zero => exact .inl ⟨rfl, fun j h1 h2 => by omega⟩
  | succ count ih =>
    simp only [scanLiteral]
    cases ha : triggerByte rd i with
    | true => exact .inr ⟨i, by omega, by omega, fun h h1 h2 => by omega, .inl ⟨ha, by simp⟩⟩
    | false =>
    cases hb : triggerWord rd cur i with
    | true => exact .inr ⟨i, by omega, by omega, fun h h1 h2 => by omega, .inr (.inl ⟨ha, hb, by simp⟩)⟩
    | false =>
    cases hc : triggerAlpha rd cur alpha i with
    | true => exact .inr ⟨i, by omega, by omega, fun h h1 h2 => by omega, .inr (.inr ⟨ha, hb, hc, by simp⟩)⟩
    | false =>
    simp only [Bool.false_eq_true, if_false]
    have upd : ∀ (P : Nat → Prop), P i → ∀ {j}, (∀ h, i + 1 ≤ h → h < j → P h) → ∀ h, i ≤ h → h < j → P h := by
      intro P hi j hh h h1 h2
      by_cases e : h = i
      · rw [e]; exact hi
      · exact hh h (by omega) h2
    obtain ⟨e, h⟩ | ⟨j, h1, h2, h3, h4⟩ := ih (i + 1)
    · exact .inl ⟨e, upd _ ⟨ha, hb, hc⟩ (fun h' a b => h h' a (by omega))⟩
    · exact .inr ⟨j, by omega, by omega, upd _ ⟨ha, hb, hc⟩ h3, h4⟩

/-- The order of the four steps (R130). -/
theorem classify_cases (rd : Nat → Byte) (len cur : Nat) (alpha : Bool) :
    classifyWord rd len cur = some (classify rd len cur alpha) ∨
    (classifyWord rd len cur = none ∧ classifyByte rd len cur = some (classify rd len cur alpha)) ∨
    (classifyWord rd len cur = none ∧ classifyByte rd len cur = none ∧ classifyAlpha rd len cur alpha = some (classify rd len cur alpha)) ∨
    (classifyWord rd len cur = none ∧ classifyByte rd len cur = none ∧ classifyAlpha rd len cur alpha = none ∧
      classify rd len cur alpha = classifyLiteral rd len cur alpha) := by
  unfold classify
  cases h1 : classifyWord rd len cur with
  | some r => exact .inl rfl
  | none =>
  cases h2 : classifyByte rd len cur with
  | some r => exact .inr (.inl ⟨rfl, rfl⟩)
  | none =>
  cases h3 : classifyAlpha rd len cur alpha with
  | some r => exact .inr (.inr (.inl ⟨rfl, rfl, rfl⟩))
  | none => exact .inr (.inr (.inr ⟨rfl, rfl, rfl, rfl⟩))

/-- Step 4 gives a literal. -/
theorem classifyLiteral_kind (rd : Nat → Byte) (len cur : Nat) (alpha : Bool) : (classifyLiteral rd len cur alpha).kind = .literal := by
  unfold classifyLiteral; split <;> rfl

end Sys2Proof.Machine
end

