-- ==== Sys2Proof/Laws/Codec.lean ====
section
/-!
SUPPORT. One lemma per way through `unpack`, `pack` and the decoder (40_token_codec.md R110, R111, 43_decompressor.md R181).
-/

namespace Sys2Proof

/-- A byte without bit 7 ends the token. -/
theorem unpackRest_last (kind : Kind) (more len k : Nat) (b : Byte) (rest : List Byte) (h : isExtended b = false) :
    unpackRest kind more len k b rest = .ok ⟨kind, len, k⟩ := by
  unfold unpackRest; simp [h]

/-- A byte with bit 7 takes the next group in. -/
theorem unpackRest_more (kind : Kind) (more len k : Nat) (b c : Byte) (cs : List Byte) (h : isExtended b = true) :
    unpackRest kind (more + 1) len k b (c :: cs) = unpackRest kind more (len * 128 + contGroup c) (k + 1) c cs := by
  conv_lhs => unfold unpackRest
  simp [h, fold_group _ _ (contGroup_lt c)]

/-- The announced byte lies beyond the container (R92 (c)). -/
theorem unpackRest_end (kind : Kind) (more len k : Nat) (b : Byte) (h : isExtended b = true) :
    unpackRest kind (more + 1) len k b [] = .error .leavesContainer := by
  unfold unpackRest; simp [h]

/-- The fourth byte asks for a fifth (R92 (b)). -/
theorem unpackRest_full (kind : Kind) (len k : Nat) (b : Byte) (rest : List Byte) (h : isExtended b = true) :
    unpackRest kind 0 len k b rest = .error .fifthByte := by
  unfold unpackRest; simp [h]

/-- A first byte that is not reserved starts the loop. -/
theorem unpack_first (b : Byte) (rest : List Byte) (h : isReserved b = false) :
    unpack (b :: rest) = unpackRest (firstKind b) 3 (firstGroup b) 1 b rest := by
  simp [unpack, h]

/-- A reserved first byte (R92 (a)). -/
theorem unpack_reserved (b : Byte) (rest : List Byte) (h : isReserved b = true) :
    unpack (b :: rest) = .error .reservedFlags := by
  simp [unpack, h]

/-- `unpack` on a built first byte. -/
theorem unpack_firstByte (kind : Kind) (ext : Bool) (g : Nat) (rest : List Byte) (hg : g < 2 ^ kind.firstBits) :
    unpack (firstByte kind ext g :: rest) = unpackRest kind 3 g 1 (firstByte kind ext g) rest := by
  obtain ⟨h1, h2, h3, h4⟩ := firstByte_fields kind ext g hg
  rw [unpack_first _ _ h3, h2, h4]

/-- `MAXLEN` (R90) as a bound on the bits. -/
theorem maxLen_lt (kind : Kind) (n : Nat) : kind.maxLen < n ↔ 2 ^ (kind.firstBits + 21) ≤ n := by
  have := Nat.pos_of_ne_zero (Nat.pos_iff_ne_zero.mp (Nat.pow_pos (n := kind.firstBits + 21) (show 0 < 2 by decide)))
  unfold Kind.maxLen; omega

/-- `pack` below the maximum (R110). -/
theorem pack_ok (kind : Kind) (n : Nat) (h : n < 2 ^ (kind.firstBits + 21)) :
    pack kind n = .ok (tokenBytes kind (ntok kind n) n) := by
  unfold pack; rw [if_neg]; rw [maxLen_lt]; omega

/-- `pack` above the maximum (R110). -/
theorem pack_overflow (kind : Kind) (n : Nat) (h : 2 ^ (kind.firstBits + 21) ≤ n) : pack kind n = .error .overflow := by
  unfold pack; rw [if_pos]; rwa [maxLen_lt]

/-- A token that unpacks names its row. -/
theorem decodeRecord_token (t : Token) (bytes : List Byte) (h : unpack bytes = .ok t) :
    decodeRecord bytes = .ok (Instr.ofToken t) := by
  unfold decodeRecord; rw [h]

/-- The one rejection of a record: its token leaves the container. -/
theorem decode_record_error (b : List Byte) (e : DecodeError) (h : decode .record b = .error e) : e = .leavesContainer := by
  simp only [decode, decodeRecord] at h
  split at h <;> cases h
  rfl

/-- Everything the header decoder can answer: the length test, then the magic test (R181). -/
theorem decodeHeader_cases (b : List Byte) :
    (b.length < 8 ∧ decodeHeader b = .error .headerTooShort) ∨
    (∃ m0 m1 m2 m3 t0 t1 t2 t3 tl, b = m0 :: m1 :: m2 :: m3 :: t0 :: t1 :: t2 :: t3 :: tl ∧
      (([m0, m1, m2, m3] ≠ magic ∧ decodeHeader b = .error .notMagic) ∨
       ([m0, m1, m2, m3] = magic ∧ decodeHeader b = .ok (.hdr (BitVec.ofNat 32 (le32 t0 t1 t2 t3)))))) := by
  match b with
  | m0 :: m1 :: m2 :: m3 :: t0 :: t1 :: t2 :: t3 :: tl =>
    refine .inr ⟨_, _, _, _, _, _, _, _, _, rfl, ?_⟩
    by_cases h : [m0, m1, m2, m3] = magic
    · exact .inr ⟨h, by simp only [decodeHeader, if_pos h]⟩
    · exact .inl ⟨h, by simp only [decodeHeader, if_neg h]⟩
  | [] => exact .inl ⟨by simp, rfl⟩
  | [_] => exact .inl ⟨by simp, rfl⟩
  | [_, _] => exact .inl ⟨by simp, rfl⟩
  | [_, _, _] => exact .inl ⟨by simp, rfl⟩
  | [_, _, _, _] => exact .inl ⟨by simp, rfl⟩
  | [_, _, _, _, _] => exact .inl ⟨by simp, rfl⟩
  | [_, _, _, _, _, _] => exact .inl ⟨by simp, rfl⟩
  | [_, _, _, _, _, _, _] => exact .inl ⟨by simp, rfl⟩

end Sys2Proof
end

