-- ==== Sys2Proof/Laws/State.lean ====
section
/-!
SUPPORT. What each named update of the state does to each field, so that no proof unfolds a record update.
-/

namespace Sys2Proof.Machine

/-! `State.emit`: the sink grows by `v` and is counted (20_memory.md R59). -/

@[simp] theorem State.emit_phase (s : State) (v : List Byte) : (s.emit v).phase = s.phase := rfl
@[simp] theorem State.emit_result (s : State) (v : List Byte) : (s.emit v).result = s.result := rfl
@[simp] theorem State.emit_cfgAlpha (s : State) (v : List Byte) : (s.emit v).cfgAlpha = s.cfgAlpha := rfl
@[simp] theorem State.emit_inp (s : State) (v : List Byte) : (s.emit v).inp = s.inp := rfl
@[simp] theorem State.emit_inLen (s : State) (v : List Byte) : (s.emit v).inLen = s.inLen := rfl
@[simp] theorem State.emit_cur (s : State) (v : List Byte) : (s.emit v).cur = s.cur := rfl
@[simp] theorem State.emit_out (s : State) (v : List Byte) : (s.emit v).out = s.out ++ v := rfl
@[simp] theorem State.emit_outCnt (s : State) (v : List Byte) : (s.emit v).outCnt = s.outCnt + v.length := rfl
@[simp] theorem State.emit_totalLen (s : State) (v : List Byte) : (s.emit v).totalLen = s.totalLen := rfl
@[simp] theorem State.emit_calls (s : State) (v : List Byte) : (s.emit v).calls = s.calls := rfl
@[simp] theorem State.emit_replies (s : State) (v : List Byte) : (s.emit v).replies = s.replies := rfl
@[simp] theorem State.emit_freeIdx (s : State) (v : List Byte) : (s.emit v).freeIdx = s.freeIdx := rfl

/-! `State.setCur`: only CUR changes (10_state.md R23). -/

@[simp] theorem State.setCur_phase (s : State) (t : Nat) : (s.setCur t).phase = s.phase := rfl
@[simp] theorem State.setCur_result (s : State) (t : Nat) : (s.setCur t).result = s.result := rfl
@[simp] theorem State.setCur_cfgAlpha (s : State) (t : Nat) : (s.setCur t).cfgAlpha = s.cfgAlpha := rfl
@[simp] theorem State.setCur_inp (s : State) (t : Nat) : (s.setCur t).inp = s.inp := rfl
@[simp] theorem State.setCur_inLen (s : State) (t : Nat) : (s.setCur t).inLen = s.inLen := rfl
@[simp] theorem State.setCur_cur (s : State) (t : Nat) : (s.setCur t).cur = t := rfl
@[simp] theorem State.setCur_out (s : State) (t : Nat) : (s.setCur t).out = s.out := rfl
@[simp] theorem State.setCur_outCnt (s : State) (t : Nat) : (s.setCur t).outCnt = s.outCnt := rfl
@[simp] theorem State.setCur_totalLen (s : State) (t : Nat) : (s.setCur t).totalLen = s.totalLen := rfl
@[simp] theorem State.setCur_calls (s : State) (t : Nat) : (s.setCur t).calls = s.calls := rfl
@[simp] theorem State.setCur_replies (s : State) (t : Nat) : (s.setCur t).replies = s.replies := rfl
@[simp] theorem State.setCur_freeIdx (s : State) (t : Nat) : (s.setCur t).freeIdx = s.freeIdx := rfl

/-! `State.raise`: only RESULT and PHASE change (60_exceptions.md R230). -/

@[simp] theorem State.raise_phase (s : State) (k : Failure) : (s.raise k).phase = .done := rfl
@[simp] theorem State.raise_result (s : State) (k : Failure) : (s.raise k).result = .fail k := rfl
@[simp] theorem State.raise_cfgAlpha (s : State) (k : Failure) : (s.raise k).cfgAlpha = s.cfgAlpha := rfl
@[simp] theorem State.raise_inp (s : State) (k : Failure) : (s.raise k).inp = s.inp := rfl
@[simp] theorem State.raise_inLen (s : State) (k : Failure) : (s.raise k).inLen = s.inLen := rfl
@[simp] theorem State.raise_cur (s : State) (k : Failure) : (s.raise k).cur = s.cur := rfl
@[simp] theorem State.raise_out (s : State) (k : Failure) : (s.raise k).out = s.out := rfl
@[simp] theorem State.raise_outCnt (s : State) (k : Failure) : (s.raise k).outCnt = s.outCnt := rfl
@[simp] theorem State.raise_totalLen (s : State) (k : Failure) : (s.raise k).totalLen = s.totalLen := rfl
@[simp] theorem State.raise_calls (s : State) (k : Failure) : (s.raise k).calls = s.calls := rfl
@[simp] theorem State.raise_replies (s : State) (k : Failure) : (s.raise k).replies = s.replies := rfl
@[simp] theorem State.raise_freeIdx (s : State) (k : Failure) : (s.raise k).freeIdx = s.freeIdx := rfl

/-! `State.succeed`: only RESULT and PHASE change (42_compressor.md R169). -/

@[simp] theorem State.succeed_phase (s : State) : (s.succeed).phase = .done := rfl
@[simp] theorem State.succeed_result (s : State) : (s.succeed).result = .ok s.outCnt := rfl
@[simp] theorem State.succeed_cfgAlpha (s : State) : (s.succeed).cfgAlpha = s.cfgAlpha := rfl
@[simp] theorem State.succeed_inp (s : State) : (s.succeed).inp = s.inp := rfl
@[simp] theorem State.succeed_inLen (s : State) : (s.succeed).inLen = s.inLen := rfl
@[simp] theorem State.succeed_cur (s : State) : (s.succeed).cur = s.cur := rfl
@[simp] theorem State.succeed_out (s : State) : (s.succeed).out = s.out := rfl
@[simp] theorem State.succeed_outCnt (s : State) : (s.succeed).outCnt = s.outCnt := rfl
@[simp] theorem State.succeed_totalLen (s : State) : (s.succeed).totalLen = s.totalLen := rfl
@[simp] theorem State.succeed_calls (s : State) : (s.succeed).calls = s.calls := rfl
@[simp] theorem State.succeed_replies (s : State) : (s.succeed).replies = s.replies := rfl
@[simp] theorem State.succeed_freeIdx (s : State) : (s.succeed).freeIdx = s.freeIdx := rfl

/-! `State.begin`: PHASE BUSY and an empty sink (70_reset_and_hazards.md R251). -/

@[simp] theorem State.begin_phase (s : State) (a : Agent) : (s.begin a).phase = .busy a := rfl
@[simp] theorem State.begin_result (s : State) (a : Agent) : (s.begin a).result = Config.unspecifiedResult s.freeIdx := rfl
@[simp] theorem State.begin_cfgAlpha (s : State) (a : Agent) : (s.begin a).cfgAlpha = s.cfgAlpha := rfl
@[simp] theorem State.begin_inp (s : State) (a : Agent) : (s.begin a).inp = s.inp := rfl
@[simp] theorem State.begin_inLen (s : State) (a : Agent) : (s.begin a).inLen = s.inLen := rfl
@[simp] theorem State.begin_cur (s : State) (a : Agent) : (s.begin a).cur = s.cur := rfl
@[simp] theorem State.begin_out (s : State) (a : Agent) : (s.begin a).out = [] := rfl
@[simp] theorem State.begin_outCnt (s : State) (a : Agent) : (s.begin a).outCnt = 0 := rfl
@[simp] theorem State.begin_totalLen (s : State) (a : Agent) : (s.begin a).totalLen = s.totalLen := rfl
@[simp] theorem State.begin_calls (s : State) (a : Agent) : (s.begin a).calls = s.calls := rfl
@[simp] theorem State.begin_replies (s : State) (a : Agent) : (s.begin a).replies = s.replies := rfl
@[simp] theorem State.begin_freeIdx (s : State) (a : Agent) : (s.begin a).freeIdx = s.freeIdx + 1 := rfl

/-! `State.setInput`: IN and IN_LEN become the buffer (10_state.md R22). -/

@[simp] theorem State.setInput_phase (s : State) (buffer : List Byte) : (s.setInput buffer).phase = s.phase := rfl
@[simp] theorem State.setInput_result (s : State) (buffer : List Byte) : (s.setInput buffer).result = s.result := rfl
@[simp] theorem State.setInput_cfgAlpha (s : State) (buffer : List Byte) : (s.setInput buffer).cfgAlpha = s.cfgAlpha := rfl
@[simp] theorem State.setInput_inp (s : State) (buffer : List Byte) : (s.setInput buffer).inp = Memory.load 0 buffer := rfl
@[simp] theorem State.setInput_inLen (s : State) (buffer : List Byte) : (s.setInput buffer).inLen = buffer.length := rfl
@[simp] theorem State.setInput_cur (s : State) (buffer : List Byte) : (s.setInput buffer).cur = s.cur := rfl
@[simp] theorem State.setInput_out (s : State) (buffer : List Byte) : (s.setInput buffer).out = s.out := rfl
@[simp] theorem State.setInput_outCnt (s : State) (buffer : List Byte) : (s.setInput buffer).outCnt = s.outCnt := rfl
@[simp] theorem State.setInput_totalLen (s : State) (buffer : List Byte) : (s.setInput buffer).totalLen = s.totalLen := rfl
@[simp] theorem State.setInput_calls (s : State) (buffer : List Byte) : (s.setInput buffer).calls = s.calls := rfl
@[simp] theorem State.setInput_replies (s : State) (buffer : List Byte) : (s.setInput buffer).replies = s.replies := rfl
@[simp] theorem State.setInput_freeIdx (s : State) (buffer : List Byte) : (s.setInput buffer).freeIdx = s.freeIdx := rfl

/-! `State.answer`: only the host's side changes (44_host_interface.md R201). -/

@[simp] theorem State.answer_phase (s : State) (r : Reply) : (s.answer r).phase = s.phase := rfl
@[simp] theorem State.answer_result (s : State) (r : Reply) : (s.answer r).result = s.result := rfl
@[simp] theorem State.answer_cfgAlpha (s : State) (r : Reply) : (s.answer r).cfgAlpha = s.cfgAlpha := rfl
@[simp] theorem State.answer_inp (s : State) (r : Reply) : (s.answer r).inp = s.inp := rfl
@[simp] theorem State.answer_inLen (s : State) (r : Reply) : (s.answer r).inLen = s.inLen := rfl
@[simp] theorem State.answer_cur (s : State) (r : Reply) : (s.answer r).cur = s.cur := rfl
@[simp] theorem State.answer_out (s : State) (r : Reply) : (s.answer r).out = s.out := rfl
@[simp] theorem State.answer_outCnt (s : State) (r : Reply) : (s.answer r).outCnt = s.outCnt := rfl
@[simp] theorem State.answer_totalLen (s : State) (r : Reply) : (s.answer r).totalLen = s.totalLen := rfl
@[simp] theorem State.answer_calls (s : State) (r : Reply) : (s.answer r).calls = s.calls := rfl
@[simp] theorem State.answer_replies (s : State) (r : Reply) : (s.answer r).replies = s.replies ++ [r] := rfl
@[simp] theorem State.answer_freeIdx (s : State) (r : Reply) : (s.answer r).freeIdx = s.freeIdx := rfl

/-- Reading IN looks at IN alone. -/
theorem State.inByte_congr (s t : State) (h : s.inp = t.inp) : s.inByte = t.inByte := by
  funext a; simp only [State.inByte, h]

end Sys2Proof.Machine
end

