-- ==== Sys2Proof/Laws/Memory.lean ====
section
/-!
SUPPORT. The input space: loading a buffer keeps the canonical form (assumption 8), and what its bytes read as.
-/

namespace Sys2Proof.Machine

/-- A loaded buffer at `a`: its bytes from `a` on, nothing below. -/
theorem Memory.read_load (buf : List Byte) : ∀ a i, Memory.read (Memory.load a buf) (a + i) = buf.getD i Memory.unlisted
    ∧ ∀ j, j < a → Memory.read (Memory.load a buf) j = Memory.unlisted := by
  induction buf with
  | nil => intro a i; simp [Memory.load, Memory.read]
  | cons b bs ih =>
    intro a i
    unfold Memory.load
    split_ifs with h
    · refine ⟨?_, fun j hj => (ih (a + 1) 0).2 j (by omega)⟩
      cases i with
      | zero => exact ((ih (a + 1) 0).2 a (by omega)).trans (by simp [h])
      | succ i => rw [show a + (i + 1) = a + 1 + i by omega, (ih (a + 1) i).1]; simp
    · refine ⟨?_, fun j hj => ?_⟩
      · cases i with
        | zero => simp [Memory.read]
        | succ i =>
          simp only [Memory.read]
          rw [if_neg (by omega), show a + (i + 1) = a + 1 + i by omega, (ih (a + 1) i).1]; simp
      · simp only [Memory.read]
        rw [if_neg (by omega), (ih (a + 1) 0).2 j (by omega)]

/-- The canonical form from a lower index. -/
theorem Memory.wfFrom_mono (len : Nat) (m : Memory) (lo lo' : Nat) (h : lo' ≤ lo) (w : Memory.wfFrom len lo m = true) :
    Memory.wfFrom len lo' m = true := by
  cases m with
  | nil => rfl
  | cons c m =>
    obtain ⟨i, b⟩ := c
    simp only [Memory.wfFrom, Bool.and_eq_true, decide_eq_true_eq] at w ⊢
    exact ⟨⟨⟨by omega, w.1.1.2⟩, w.1.2⟩, w.2⟩

/-- A loaded buffer is canonical from its own index on. -/
theorem Memory.wfFrom_load (buf : List Byte) : ∀ a len, a + buf.length ≤ len → Memory.wfFrom len a (Memory.load a buf) = true := by
  induction buf with
  | nil => intros; rfl
  | cons b bs ih =>
    intro a len h
    simp only [List.length_cons] at h
    unfold Memory.load
    split_ifs with hb
    · exact Memory.wfFrom_mono _ _ _ _ (Nat.le_succ a) (ih (a + 1) len (by omega))
    · simp only [Memory.wfFrom, Bool.and_eq_true, decide_eq_true_eq, bne_iff_ne]
      exact ⟨⟨⟨by omega, by omega⟩, hb⟩, ih (a + 1) len (by omega)⟩

/-- Loading, the only write of the input space, gives the canonical form. -/
theorem Memory.wf_load (buf : List Byte) : Memory.wf buf.length (Memory.load 0 buf) = true :=
  Memory.wfFrom_load buf 0 buf.length (by omega)

/-- The input space at reset is canonical. -/
theorem Memory.wf_reset : Memory.wf State.reset.inLen State.reset.inp = true := rfl

/-- The input space the host's buffer becomes is canonical. -/
theorem State.setInput_wf (s : State) (buffer : List Byte) :
    Memory.wf (s.setInput buffer).inLen (s.setInput buffer).inp = true := Memory.wf_load buffer

/-- A canonical input space lists nothing below its start. -/
theorem Memory.read_below (len lo a : Nat) (m : Memory) (w : Memory.wfFrom len lo m = true) (h : a < lo) :
    Memory.read m a = Memory.unlisted := by
  induction m generalizing lo with
  | nil => rfl
  | cons c m ih =>
    obtain ⟨i, b⟩ := c
    simp only [Memory.wfFrom, Bool.and_eq_true, decide_eq_true_eq] at w
    simp only [Memory.read]
    rw [if_neg (by omega)]
    exact ih (i + 1) w.2 (by omega)

/-- Canonical input spaces that read alike are equal data. -/
theorem Memory.ext_of_wf (len lo : Nat) (m m' : Memory) (w : Memory.wfFrom len lo m = true)
    (w' : Memory.wfFrom len lo m' = true) (h : ∀ a, Memory.read m a = Memory.read m' a) : m = m' := by
  induction m generalizing lo m' with
  | nil =>
    cases m' with
    | nil => rfl
    | cons c m' =>
      obtain ⟨i, b⟩ := c
      simp only [Memory.wfFrom, Bool.and_eq_true, bne_iff_ne] at w'
      have := h i
      simp only [Memory.read, if_true] at this
      exact absurd this.symm w'.1.2
  | cons c m ih =>
    obtain ⟨i, b⟩ := c
    simp only [Memory.wfFrom, Bool.and_eq_true, decide_eq_true_eq, bne_iff_ne] at w
    cases m' with
    | nil =>
      have := h i
      simp only [Memory.read, if_true] at this
      exact absurd this w.1.2
    | cons c' m' =>
      obtain ⟨i', b'⟩ := c'
      simp only [Memory.wfFrom, Bool.and_eq_true, decide_eq_true_eq, bne_iff_ne] at w'
      rcases Nat.lt_trichotomy i i' with hi | rfl | hi
      · have := h i
        simp only [Memory.read, if_true] at this
        rw [if_neg (by omega), Memory.read_below len (i' + 1) i m' w'.2 (by omega)] at this
        exact absurd this w.1.2
      · have hb := h i
        simp only [Memory.read, if_true] at hb
        rw [hb, ih (i + 1) m' w.2 w'.2 (fun a => ?_)]
        by_cases ha : a < i + 1
        · rw [Memory.read_below _ _ _ _ w.2 ha, Memory.read_below _ _ _ _ w'.2 ha]
        · have := h a
          simp only [Memory.read] at this
          rwa [if_neg (by omega), if_neg (by omega)] at this
      · have := h i'
        simp only [Memory.read, if_true] at this
        rw [if_neg (by omega), Memory.read_below len (i + 1) i' m w.2 (by omega)] at this
        exact absurd this.symm w'.1.2

end Sys2Proof.Machine
end

