-- ==== Sys2Proof/Laws/Operands.lean ====
section
/-!
SUPPORT. The operand forms: how many bytes each payload and each restored run has and which byte stands where (30_encoding.md R91),
and everything a record can do (43_decompressor.md R182).
-/

namespace Sys2Proof.Machine

/-- `MemRead` gives as many bytes as asked. -/
@[simp] theorem readBytes_length (rd : Nat → Byte) (a n : Nat) : (readBytes rd a n).length = n := by
  induction n generalizing a with
  | zero => rfl
  | succ n ih => simp [readBytes, ih]

/-- The bytes `MemRead` gives. -/
theorem readBytes_getElem? (rd : Nat → Byte) (a n j : Nat) (h : j < n) : (readBytes rd a n)[j]? = some (rd (a + j)) := by
  induction n generalizing a j with
  | zero => omega
  | succ n ih =>
    cases j with
    | zero => simp [readBytes]
    | succ j => simp only [readBytes, List.getElem?_cons_succ]; rw [ih (a + 1) j (by omega)]; congr 2; omega

/-- `MemRead` looks at its own bytes only. -/
theorem readBytes_congr (rd rd' : Nat → Byte) (a n : Nat) (h : ∀ i, a ≤ i → i < a + n → rd i = rd' i) :
    readBytes rd a n = readBytes rd' a n := by
  induction n generalizing a with
  | zero => rfl
  | succ n ih => simp only [readBytes]; rw [h a (by omega) (by omega), ih (a + 1) (fun i h1 h2 => h i (by omega) (by omega))]

/-- `MemRead` of a loaded buffer. -/
theorem readBytes_load (buf : List Byte) (a n : Nat) (h : a + n ≤ buf.length) :
    readBytes (Memory.read (Memory.load 0 buf)) a n = (buf.drop a).take n := by
  apply List.ext_getElem?
  intro j
  by_cases hj : j < n
  · rw [readBytes_getElem? _ _ _ _ hj, ← Nat.zero_add (a + j), (Memory.read_load buf 0 (a + j)).1, List.getElem?_take_of_lt hj,
      List.getElem?_drop, List.getD_eq_getElem?_getD, List.getElem?_eq_getElem (by omega)]; rfl
  · rw [List.getElem?_eq_none (by simp; omega), List.getElem?_eq_none (by simp; omega)]

/-- `rep(v, n)` has `n * |v|` bytes. -/
@[simp] theorem rep_length (v : List Byte) (n : Nat) : (rep v n).length = n * v.length := by
  induction n with
  | zero => simp [rep]
  | succ n ih => simp [rep, ih, Nat.succ_mul]; omega

/-- The bytes of `rep(v, n)`. -/
theorem rep_getElem? (v : List Byte) (n j i : Nat) (hj : j < n) (hi : i < v.length) :
    (rep v n)[v.length * j + i]? = v[i]? := by
  induction n generalizing j with
  | zero => omega
  | succ n ih =>
    cases j with
    | zero => simp only [rep, Nat.mul_zero, Nat.zero_add]; rw [List.getElem?_append_left hi]
    | succ j =>
      simp only [rep]
      rw [List.getElem?_append_right (by rw [Nat.mul_succ]; omega), show v.length * (j + 1) + i - v.length = v.length * j + i by rw [Nat.mul_succ]; omega]
      exact ih j (by omega)

/-- `n` pixels have `4 * n` bytes. -/
@[simp] theorem pixels_length (rd : Nat → Byte) (a : Byte) (p n : Nat) : (pixels rd a p n).length = 4 * n := by
  induction n generalizing p with
  | zero => rfl
  | succ n ih => simp [pixels, ih]; omega

/-- The bytes of the restored pixels (R186). -/
theorem pixels_getElem? (rd : Nat → Byte) (a : Byte) (p n j : Nat) (h : j < n) :
    (pixels rd a p n)[4 * j]? = some a ∧ (pixels rd a p n)[4 * j + 1]? = some (rd (p + 3 * j)) ∧
    (pixels rd a p n)[4 * j + 2]? = some (rd (p + 3 * j + 1)) ∧ (pixels rd a p n)[4 * j + 3]? = some (rd (p + 3 * j + 2)) := by
  induction n generalizing p j with
  | zero => omega
  | succ n ih =>
    cases j with
    | zero => simp [pixels]
    | succ j =>
      have e : ∀ i, (pixels rd a p (n + 1))[4 * (j + 1) + i]? = (pixels rd a (p + 3) n)[4 * j + i]? := by
        intro i; rw [show 4 * (j + 1) + i = (4 * j + i) + 4 by omega]; simp [pixels]
      obtain ⟨h0, h1, h2, h3⟩ := ih (p + 3) j (by omega)
      have e0 := e 0
      simp only [Nat.add_zero] at e0
      refine ⟨by rw [e0, h0], by rw [e, h1]; congr 2; omega, by rw [e, h2]; congr 2; omega, by rw [e, h3]; congr 2; omega⟩

/-- `n` triples have `3 * n` bytes. -/
@[simp] theorem triples_length (rd : Nat → Byte) (c n : Nat) : (triples rd c n).length = 3 * n := by
  induction n generalizing c with
  | zero => rfl
  | succ n ih => simp [triples, ih]; omega

/-- The bytes of the stored triples (42_compressor.md R166). -/
theorem triples_getElem? (rd : Nat → Byte) (c n j i : Nat) (h : j < n) (hi : i < 3) :
    (triples rd c n)[3 * j + i]? = some (rd (c + 4 * j + 1 + i)) := by
  induction n generalizing c j with
  | zero => omega
  | succ n ih =>
    cases j with
    | zero => obtain rfl | rfl | rfl : i = 0 ∨ i = 1 ∨ i = 2 := by omega
              all_goals simp [triples]
    | succ j =>
      rw [show 3 * (j + 1) + i = (3 * j + i) + 3 by omega]
      simp only [triples, List.getElem?_cons_succ]
      rw [ih (c + 4) j (by omega)]; congr 2; omega

/-- A record appends `span` bytes. -/
@[simp] theorem restore_length (kind : Kind) (rd : Nat → Byte) (q n : Nat) : (restore kind rd q n).length = span kind n := by
  cases kind <;> simp [restore, restoreLit, restoreBrep, restoreWrep, restoreArep, span]; omega

/-- The record step where the payload fits. -/
theorem execRecord_fits (kind : Kind) (k n : Nat) (s : State) (h : s.cur + k + paySize kind n ≤ s.inLen) :
    execRecord kind k n s = .next { s with
      out := s.out ++ restore kind s.inByte (s.cur + k) n, outCnt := s.outCnt + span kind n,
      cur := s.cur + k + paySize kind n } := by
  unfold execRecord; rw [if_neg (by omega)]; simp [State.emit, State.setCur]

/-- The record step where the payload leaves the container (R187). -/
theorem execRecord_truncated (kind : Kind) (k n : Nat) (s : State) (h : s.inLen < s.cur + k + paySize kind n) :
    execRecord kind k n s = .next { s with result := .fail .truncatedRecord, phase := .done } := by
  unfold execRecord; rw [if_pos (by omega)]; rfl

/-- The `LIT` rows are the record step. -/
theorem exec_lit (s : State) (n : Nat) (f : Instr × Nat) (h : f ∈ litForms n) : exec f.1 s = execRecord .literal f.2 n s := by
  simp only [litForms, List.mem_cons, List.not_mem_nil, or_false] at h
  obtain rfl | rfl | rfl | rfl := h <;> rfl

/-- The `BREP` rows are the record step. -/
theorem exec_brep (s : State) (n : Nat) (f : Instr × Nat) (h : f ∈ brepForms n) : exec f.1 s = execRecord .byteRepeat f.2 n s := by
  simp only [brepForms, List.mem_cons, List.not_mem_nil, or_false] at h
  obtain rfl | rfl | rfl | rfl := h <;> rfl

/-- The `WREP` rows are the record step. -/
theorem exec_wrep (s : State) (n : Nat) (f : Instr × Nat) (h : f ∈ wrepForms n) : exec f.1 s = execRecord .wordRepeat f.2 n s := by
  simp only [wrepForms, List.mem_cons, List.not_mem_nil, or_false] at h
  obtain rfl | rfl | rfl | rfl := h <;> rfl

/-- The `AREP` rows are the record step. -/
theorem exec_arep (s : State) (n : Nat) (f : Instr × Nat) (h : f ∈ arepForms n) : exec f.1 s = execRecord .alphaRepeat f.2 n s := by
  simp only [arepForms, List.mem_cons, List.not_mem_nil, or_false] at h
  obtain rfl | rfl | rfl | rfl := h <;> rfl

/-- Everything a row can do: the record step, MalformedToken, or the header's two writes. -/
theorem exec_cases (i : Instr) (s : State) :
    (∃ kind k n, exec i s = execRecord kind k n s ∧ 1 ≤ k) ∨ (exec i s = .next (s.raise .malformedToken)) ∨
    (∃ t, i = .hdr t ∧ exec i s = .next { s with totalLen := t, cur := 8 }) := by
  cases i with
  | reservedWA => exact .inr (.inl rfl)
  | malformedExt4 => exact .inr (.inl rfl)
  | hdr t => exact .inr (.inr ⟨t, rfl, rfl⟩)
  | _ n => exact .inl ⟨_, _, n, rfl, by decide⟩

end Sys2Proof.Machine
end

