-- ==== Sys2Proof/Laws/PerInstr.lean ====
section
/-!
SUPPORT. A law per row of spec/opcode_table.json: how many bytes its encoding has (30_encoding.md R97).
-/

namespace Sys2Proof.Laws

/-- Bytes of a row's token or header: the digit of its mnemonic, 1 for `RESERVED.WA`, 4 for `MALFORMED.EXT4`, 8 for `HDR`. -/
def EncodedSize.bytes : Instr → Nat
  | .lit1 _ => 1
  | .lit2 _ => 2
  | .lit3 _ => 3
  | .lit4 _ => 4
  | .brep1 _ => 1
  | .brep2 _ => 2
  | .brep3 _ => 3
  | .brep4 _ => 4
  | .arep1 _ => 1
  | .arep2 _ => 2
  | .arep3 _ => 3
  | .arep4 _ => 4
  | .wrep1 _ => 1
  | .wrep2 _ => 2
  | .wrep3 _ => 3
  | .wrep4 _ => 4
  | .reservedWA _ _ => 1
  | .malformedExt4 _ _ _ _ => 4
  | .hdr _ => 8

/-- The encoding of an instruction has exactly the bytes its row gives it. -/
def EncodedSize.Statement (i : Instr) : Prop := (encode i).length = EncodedSize.bytes i

theorem EncodedSize.lit1 (n : Nat) : EncodedSize.Statement (.lit1 n) := tokenBytes_length ..
theorem EncodedSize.lit2 (n : Nat) : EncodedSize.Statement (.lit2 n) := tokenBytes_length ..
theorem EncodedSize.lit3 (n : Nat) : EncodedSize.Statement (.lit3 n) := tokenBytes_length ..
theorem EncodedSize.lit4 (n : Nat) : EncodedSize.Statement (.lit4 n) := tokenBytes_length ..
theorem EncodedSize.brep1 (n : Nat) : EncodedSize.Statement (.brep1 n) := tokenBytes_length ..
theorem EncodedSize.brep2 (n : Nat) : EncodedSize.Statement (.brep2 n) := tokenBytes_length ..
theorem EncodedSize.brep3 (n : Nat) : EncodedSize.Statement (.brep3 n) := tokenBytes_length ..
theorem EncodedSize.brep4 (n : Nat) : EncodedSize.Statement (.brep4 n) := tokenBytes_length ..
theorem EncodedSize.arep1 (n : Nat) : EncodedSize.Statement (.arep1 n) := tokenBytes_length ..
theorem EncodedSize.arep2 (n : Nat) : EncodedSize.Statement (.arep2 n) := tokenBytes_length ..
theorem EncodedSize.arep3 (n : Nat) : EncodedSize.Statement (.arep3 n) := tokenBytes_length ..
theorem EncodedSize.arep4 (n : Nat) : EncodedSize.Statement (.arep4 n) := tokenBytes_length ..
theorem EncodedSize.wrep1 (n : Nat) : EncodedSize.Statement (.wrep1 n) := tokenBytes_length ..
theorem EncodedSize.wrep2 (n : Nat) : EncodedSize.Statement (.wrep2 n) := tokenBytes_length ..
theorem EncodedSize.wrep3 (n : Nat) : EncodedSize.Statement (.wrep3 n) := tokenBytes_length ..
theorem EncodedSize.wrep4 (n : Nat) : EncodedSize.Statement (.wrep4 n) := tokenBytes_length ..
theorem EncodedSize.reservedWA (ext : Bool) (low : BitVec 4) : EncodedSize.Statement (.reservedWA ext low) := rfl
theorem EncodedSize.malformedExt4 (b0 b1 b2 b3 : BitVec 7) : EncodedSize.Statement (.malformedExt4 b0 b1 b2 b3) := rfl
theorem EncodedSize.hdr (t : Word32) : EncodedSize.Statement (.hdr t) := rfl

end Sys2Proof.Laws
end

