-- ==== Sys2Proof/Laws/Step.lean ====
section
/-!
SUPPORT. Inversion of the steps: everything the host's move, a start step and an emit can do.
-/

namespace Sys2Proof.Machine

/-- While no operation runs a step is the host's. -/
theorem step_free (s : State) (h : s.free) : step s = hostStep s := by
  obtain h | h := h <;> simp only [step, h]

/-- The host moves only while no operation runs. -/
theorem free_not_busy {s : State} (h : s.free) (a : Agent) : s.phase ≠ .busy a := by
  obtain h | h := h <;> rw [h] <;> simp

/-- In every state either the host may move or one agent's operation runs (10_state.md R28). -/
theorem phase_cases (s : State) : s.free ∨ ∃ a, s.phase = .busy a := by
  cases h : s.phase with
  | idle => exact .inl (.inl h)
  | done => exact .inl (.inr h)
  | busy a => exact .inr ⟨a, rfl⟩

/-- The first bytes of a buffer just loaded. -/
theorem window_loaded (s : State) (buf : List Byte) (n : Nat) :
    (s.setInput buf).window 0 n = buf.take n := by
  simp only [State.window, State.setInput, Nat.sub_zero]
  change readBytes (Memory.read (Memory.load 0 buf)) 0 _ = _
  rw [readBytes_load _ _ _ (by omega), List.drop_zero, List.take_eq_take_iff]; omega

/-- The decompressor's start step reads the buffer's first 8 bytes (43_decompressor.md R181). -/
theorem decompressStart_eq (s : State) (buf : List Byte) :
    decompressStart (s.setInput buf) =
      match decodeHeader (buf.take 8) with
      | .ok i => exec i ((s.setInput buf).begin .decompressor)
      | .error e => .next (((s.setInput buf).begin .decompressor).raise (failureOf e)) := by
  unfold decompressStart fetchExec
  simp only [State.fetch, decode]
  have : ((s.setInput buf).begin .decompressor).window 0 headerLen = buf.take 8 := window_loaded s buf 8
  cases h : decodeHeader (buf.take 8) <;> simp only [this, h]

/-- Everything the decompressor's start step does. -/
theorem decompressStart_cases (s : State) (buf : List Byte) :
    (∃ k, decompressStart (s.setInput buf) = .next (((s.setInput buf).begin .decompressor).raise k)) ∨
    (8 ≤ buf.length ∧ ∃ t, decompressStart (s.setInput buf) = .next { (s.setInput buf).begin .decompressor with totalLen := t, cur := 8 }) := by
  rw [decompressStart_eq]
  obtain ⟨-, e⟩ | ⟨m0, m1, m2, m3, t0, t1, t2, t3, tl, hb, ⟨-, e⟩ | ⟨-, e⟩⟩ := decodeHeader_cases (buf.take 8) <;> rw [e]
  · exact .inl ⟨_, rfl⟩
  · exact .inl ⟨_, rfl⟩
  · refine .inr ⟨?_, _, rfl⟩
    have := congrArg List.length hb
    rw [List.length_take] at this; simp at this; omega

/-- Everything a step can do while no operation runs. -/
theorem host_step_cases (s : State) (hf : s.free) :
    (s.calls = [] ∧ step s = .next s) ∨
    (∃ b rest, s.calls = .setAlpha b :: rest ∧ step s = .next { s with calls := rest, cfgAlpha := b }) ∨
    (∃ c rest r, s.calls = c :: rest ∧ (∀ l, c ≠ .compress l ∧ c ≠ .decompress l) ∧ step s = .next { s with calls := rest, replies := s.replies ++ [r] }) ∨
    (∃ r, step s = .refused r) ∨
    (∃ l rest, s.calls = .compress l :: rest ∧ l.input.length < 2 ^ 32 ∧ l.overlaps = false ∧
      step s = compressStart (({ s with calls := rest } : State).setInput l.input)) ∨
    (∃ l rest, s.calls = .decompress l :: rest ∧ l.input.length < 2 ^ 32 ∧ l.overlaps = false ∧
      step s = decompressStart (({ s with calls := rest } : State).setInput l.input)) := by
  rw [step_free s hf]
  unfold hostStep
  match hcs : s.calls with
  | [] => exact .inl ⟨rfl, rfl⟩
  | c :: rest =>
    refine .inr ?_
    simp only [hostCall]
    cases c with
    | setAlpha b => exact .inl ⟨_, _, rfl, rfl⟩
    | header buf =>
      refine .inr ?_
      by_cases hl : buf.length < 2 ^ 32
      · exact .inl ⟨_, _, _, rfl, by simp, if_pos hl⟩
      · exact .inr (.inl ⟨_, if_neg hl⟩)
    | declaredLength buf =>
      refine .inr ?_
      by_cases hl : buf.length < 2 ^ 32
      · exact .inl ⟨_, _, _, rfl, by simp, if_pos hl⟩
      · exact .inr (.inl ⟨_, if_neg hl⟩)
    | compress l =>
      refine .inr (.inr ?_)
      by_cases hl : l.input.length < 2 ^ 32
      · cases ho : l.overlaps with
        | true => exact .inl ⟨_, (if_pos hl).trans (if_pos ho)⟩
        | false => exact .inr (.inl ⟨_, _, rfl, hl, ho, (if_pos hl).trans (if_neg (by simp [ho]))⟩)
      · exact .inl ⟨_, if_neg hl⟩
    | decompress l =>
      refine .inr (.inr ?_)
      by_cases hl : l.input.length < 2 ^ 32
      · cases ho : l.overlaps with
        | true => exact .inl ⟨_, (if_pos hl).trans (if_pos ho)⟩
        | false => exact .inr (.inr ⟨_, _, rfl, hl, ho, (if_pos hl).trans (if_neg (by simp [ho]))⟩)
      · exact .inl ⟨_, if_neg hl⟩

/-- The guard of a read inside IN, passed (20_memory.md R57). -/
theorem State.within_inside (s : State) (a n : Nat) (act : Outcome) (h : a + n ≤ s.inLen) : s.within a n act = act := if_pos h

/-- The guard of a read inside IN, not passed. -/
theorem State.within_outside (s : State) (a n : Nat) (act : Outcome) (h : s.inLen < a + n) :
    s.within a n act = .fault .inputOutOfRange := if_neg (by omega)

/-- Everything the compressor's start step does (42_compressor.md R161). -/
theorem compressStart_eq (s : State) :
    compressStart s = .next { s with
      phase := .busy .compressor, cur := 0, out := magic ++ leBytes s.inLen, outCnt := 8,
      result := Config.unspecifiedResult s.freeIdx, freeIdx := s.freeIdx + 1 } := rfl

/-- The payload of a run's kind (42_compressor.md R163 to R166). -/
def storePayload : Kind → (Nat → Byte) → Nat → Nat → List Byte
  | .literal, rd, c, n => storeLit rd c n
  | .byteRepeat, rd, c, _ => storeBrep rd c
  | .wordRepeat, rd, c, _ => storeWrep rd c
  | .alphaRepeat, rd, c, n => storeArep rd c n

/-- The four emits are the shared one on their payloads. -/
theorem emitKind_eq (kind : Kind) (n : Nat) (s : State) : emitKind kind n s = emitRun kind n (storePayload kind s.inByte s.cur n) s := by
  cases kind <;> rfl

/-- A payload has `paysize` bytes (42_compressor.md R171). -/
theorem storePayload_length (kind : Kind) (rd : Nat → Byte) (c n : Nat) : (storePayload kind rd c n).length = paySize kind n := by
  cases kind <;> simp [storePayload, storeLit, storeBrep, storeWrep, storeArep, paySize, Nat.add_comm]

/-- An emit that fits a token and the buffer. -/
theorem emitRun_ok (kind : Kind) (n : Nat) (v : List Byte) (s : State) (hn : n < 2 ^ (kind.firstBits + 21)) (hs : s.cur + span kind n ≤ s.inLen) :
    emitRun kind n v s = .next { s with
      out := s.out ++ tokenBytes kind (ntok kind n) n ++ v,
      outCnt := s.outCnt + (tokenBytes kind (ntok kind n) n).length + v.length, cur := s.cur + span kind n } := by
  unfold emitRun State.within
  rw [pack_ok kind n hn]; simp only [if_pos hs]; simp [State.emit, State.setCur]

/-- An emit whose run no token holds (42_compressor.md R168). -/
theorem emitRun_overflow (kind : Kind) (n : Nat) (v : List Byte) (s : State) (hn : 2 ^ (kind.firstBits + 21) ≤ n) :
    emitRun kind n v s = .next { s with result := .fail .overflow, phase := .done } := by
  unfold emitRun
  rw [pack_overflow kind n hn]; rfl

/-- A run goes on from a next state. -/
theorem core_run_next (M : Host.Core) (k : Nat) (s t : M.State) (h : M.step s = .next t) : M.run (k + 1) s = M.run k t := by
  simp only [Host.Core.run, h]

/-- The same for this machine. -/
theorem run_succ_next {s t : State} (k : Nat) (h : step s = .next t) : Sys2Proof.core.run (k + 1) s = Sys2Proof.core.run k t :=
  core_run_next Sys2Proof.core k s t h

/-- A run ends where a step stops. -/
theorem core_run_stop (M : Host.Core) (k : Nat) (s : M.State) (h : ∀ t, M.step s ≠ .next t) : M.run (k + 1) s = M.step s := by
  simp only [Host.Core.run]
  split
  · rename_i t e; exact absurd e (h t)
  · rename_i e; exact e.symm
  · rename_i e; exact e.symm

/-- Runs chain. -/
theorem core_run_trans (M : Host.Core) (j k : Nat) (s t : M.State) (h : M.run j s = .next t) : M.run (j + k) s = M.run k t := by
  induction j generalizing s with
  | zero => simp only [Host.Core.run] at h; cases h; simp
  | succ j ih =>
    cases hs : M.step s with
    | next u =>
      rw [core_run_next M j s u hs] at h
      rw [show j + 1 + k = (j + k) + 1 by omega, core_run_next M (j + k) s u hs]; exact ih u h
    | fault r => simp only [Host.Core.run, hs] at h; cases h
    | refused r => simp only [Host.Core.run, hs] at h; cases h

end Sys2Proof.Machine
end

