-- ==== Sys2Proof/Tests/Slice0.lean ====
section
/-!
SUPPORT. The model's own tests, with the rule or vector (95_test_vectors.md) each expected result comes from, and for every
obligation that has hypotheses a concrete state and operands that meet them.
-/

namespace Sys2Proof.Tests

open Sys2Proof.Machine

/-! ## Small states -/

/-- `H(t)` of 95_test_vectors.md: the header bytes for `t < 256`. -/
def header (t : Byte) : List Byte := [0x52#8, 0x4C#8, 0x45#8, 0x2E#8, t, 0x00#8, 0x00#8, 0x00#8]

/-- A decompressor at index 8 of the container `H(t)` followed by `records`, with the sink as given. -/
def decomp (t : Byte) (records out : List Byte) : State :=
  { State.reset with
    phase := .busy .decompressor, inp := Memory.load 0 (header t ++ records), inLen := 8 + records.length, cur := 8,
    out := out, outCnt := out.length, totalLen := t.setWidth 32 }

/-- A compressor at `cur` of `input`, its header emitted. -/
def comp (alpha : Bool) (input : List Byte) (cur : Nat) : State :=
  { State.reset with
    phase := .busy .compressor, cfgAlpha := alpha, inp := Memory.load 0 input, inLen := input.length, cur := cur,
    out := header (BitVec.ofNat 8 input.length), outCnt := 8 }

/-- The state after reset with one move of the host to make. -/
def host (c : HostCall) : State := { State.reset with calls := [c] }

/-- What a test looks at in the next state: the sink, OUT_CNT, CUR and PHASE. -/
def seen (o : Outcome) : Option (List Byte × Nat × Nat × Phase) :=
  (nextOf? o).map fun t => (t.out, t.outCnt, t.cur, t.phase)

/-- The RESULT of a next state. -/
def resultOf (o : Outcome) : Option Result := (nextOf? o).map fun t => t.result

/-! ## Well-formedness: a term each check refuses, and the largest it allows (30_encoding.md R89) -/

theorem test_wf_lit1 : (Instr.lit1 64).wf = false ∧ (Instr.lit1 63).wf = true := by decide
theorem test_wf_lit2 : (Instr.lit2 8192).wf = false ∧ (Instr.lit2 8191).wf = true := by decide
theorem test_wf_lit3 : (Instr.lit3 1048576).wf = false ∧ (Instr.lit3 1048575).wf = true := by decide
theorem test_wf_lit4 : (Instr.lit4 134217728).wf = false ∧ (Instr.lit4 134217727).wf = true := by decide
theorem test_wf_brep1 : (Instr.brep1 16).wf = false ∧ (Instr.brep1 15).wf = true := by decide
theorem test_wf_brep2 : (Instr.brep2 2048).wf = false ∧ (Instr.brep2 2047).wf = true := by decide
theorem test_wf_brep3 : (Instr.brep3 262144).wf = false ∧ (Instr.brep3 262143).wf = true := by decide
theorem test_wf_brep4 : (Instr.brep4 33554432).wf = false ∧ (Instr.brep4 33554431).wf = true := by decide
theorem test_wf_arep1 : (Instr.arep1 16).wf = false ∧ (Instr.arep1 15).wf = true := by decide
theorem test_wf_arep2 : (Instr.arep2 2048).wf = false ∧ (Instr.arep2 2047).wf = true := by decide
theorem test_wf_arep3 : (Instr.arep3 262144).wf = false ∧ (Instr.arep3 262143).wf = true := by decide
theorem test_wf_arep4 : (Instr.arep4 33554432).wf = false ∧ (Instr.arep4 33554431).wf = true := by decide
theorem test_wf_wrep1 : (Instr.wrep1 16).wf = false ∧ (Instr.wrep1 15).wf = true := by decide
theorem test_wf_wrep2 : (Instr.wrep2 2048).wf = false ∧ (Instr.wrep2 2047).wf = true := by decide
theorem test_wf_wrep3 : (Instr.wrep3 262144).wf = false ∧ (Instr.wrep3 262143).wf = true := by decide
theorem test_wf_wrep4 : (Instr.wrep4 33554432).wf = false ∧ (Instr.wrep4 33554431).wf = true := by decide
theorem test_wf_malformedExt4 :
    (Instr.malformedExt4 0x70#7 0#7 0#7 0#7).wf = false ∧ (Instr.malformedExt4 0x6F#7 0#7 0#7 0#7).wf = true := by decide

/-! ## Decoding: a word of every row, from the wire patterns of 30_encoding.md and the vectors named -/

/-- T3: `0 0 111111`. -/
theorem test_decode_lit1 : decode .record [0x3F#8] = .ok (.lit1 63) := by decide
/-- T8: `1 0 000010`, `0 0101100`: `2 * 128 + 44`. -/
theorem test_decode_lit2 : decode .record [0x82#8, 0x2C#8] = .ok (.lit2 300) := by decide
/-- T11: `61 * 16384 + 4 * 128 + 64`. -/
theorem test_decode_lit3 : decode .record [0xBD#8, 0x84#8, 0x40#8] = .ok (.lit3 1000000) := by decide
/-- T13. -/
theorem test_decode_lit4 : decode .record [0x80#8, 0xC0#8, 0x80#8, 0x00#8] = .ok (.lit4 1048576) := by decide
/-- T19: `0 1 0 0 1010`. -/
theorem test_decode_brep1 : decode .record [0x4A#8] = .ok (.brep1 10) := by decide
/-- T25. -/
theorem test_decode_brep2 : decode .record [0xC2#8, 0x2C#8] = .ok (.brep2 300) := by decide
/-- T27. -/
theorem test_decode_brep3 : decode .record [0xC0#8, 0x90#8, 0x00#8] = .ok (.brep3 2048) := by decide
/-- T32. -/
theorem test_decode_brep4 : decode .record [0xC0#8, 0xBD#8, 0x84#8, 0x40#8] = .ok (.brep4 1000000) := by decide
/-- T38: `0 1 0 1 0101`. -/
theorem test_decode_arep1 : decode .record [0x55#8] = .ok (.arep1 5) := by decide
/-- T39. -/
theorem test_decode_arep2 : decode .record [0xD2#8, 0x2C#8] = .ok (.arep2 300) := by decide
/-- T40. -/
theorem test_decode_arep3 : decode .record [0xDF#8, 0xFF#8, 0x7F#8] = .ok (.arep3 262143) := by decide
/-- T41. -/
theorem test_decode_arep4 : decode .record [0xD0#8, 0x90#8, 0x80#8, 0x00#8] = .ok (.arep4 262144) := by decide
/-- T33: `0 1 1 0 0101`. -/
theorem test_decode_wrep1 : decode .record [0x65#8] = .ok (.wrep1 5) := by decide
/-- T34. -/
theorem test_decode_wrep2 : decode .record [0xE2#8, 0x2C#8] = .ok (.wrep2 300) := by decide
/-- T35. -/
theorem test_decode_wrep3 : decode .record [0xE0#8, 0x90#8, 0x00#8] = .ok (.wrep3 2048) := by decide
/-- T36. -/
theorem test_decode_wrep4 : decode .record [0xEF#8, 0xFF#8, 0xFF#8, 0x7F#8] = .ok (.wrep4 33554431) := by decide
/-- T62, T63: `x111xxxx`, the rest is not looked at. -/
theorem test_decode_reservedWA :
    decode .record [0x7F#8, 0x00#8] = .ok (.reservedWA false 0xF#4) ∧ decode .record [0xFF#8] = .ok (.reservedWA true 0xF#4) := by
  decide
/-- T65: four bytes `1xxxxxxx`. -/
theorem test_decode_malformedExt4 :
    decode .record [0xCF#8, 0xFF#8, 0xFF#8, 0xFF#8] = .ok (.malformedExt4 0x4F#7 0x7F#7 0x7F#7 0x7F#7) := by decide
/-- V73: total 256, low byte first. -/
theorem test_decode_hdr :
    decode .header [0x52#8, 0x4C#8, 0x45#8, 0x2E#8, 0x00#8, 0x01#8, 0x00#8, 0x00#8] = .ok (.hdr 256#32) := by decide
/-- T67, V68, V67: rejected by name. -/
theorem test_decode_rejects :
    decode .record [0x80#8, 0x80#8] = .error .leavesContainer ∧
    decode .header [0x52#8, 0x4C#8, 0x45#8, 0x2F#8, 0x00#8, 0x00#8, 0x00#8, 0x00#8] = .error .notMagic ∧
    decode .header [0x52#8, 0x4C#8, 0x45#8, 0x2E#8, 0x00#8, 0x00#8, 0x00#8] = .error .headerTooShort := by decide
/-- T60: the most-significant group first (decision D3). -/
theorem test_decode_group_order : unpack [0xA4#8, 0x01#8] = .ok ⟨.literal, 4609, 2⟩ := by decide
/-- T10, T32: `pack`. -/
theorem test_pack :
    pack .literal 8192 = .ok [0x80#8, 0xC0#8, 0x00#8] ∧
    pack .byteRepeat 1000000 = .ok [0xC0#8, 0xBD#8, 0x84#8, 0x40#8] := by decide
/-- The opcode table's integer view (30_encoding.md R97): the first byte is the low byte. -/
theorem test_table_words :
    decodeTableWord 8 0x3F = some (.lit1 63) ∧ decodeTableWord 16 0x10C0 = some (.brep2 16) ∧
    decodeTableWord 24 0x0090E0 = some (.wrep3 2048) ∧ decodeTableWord 32 0x008090D0 = some (.arep4 262144) ∧
    decodeTableWord 8 0x70 = some (.reservedWA false 0#4) ∧
    decodeTableWord 32 0x80808080 = some (.malformedExt4 0#7 0#7 0#7 0#7) ∧
    decodeTableWord 64 0x0000000B2E454C52 = some (.hdr 11#32) := by decide

/-! ## One record per row (43_decompressor.md R182 to R187) -/

/-- V50's first record, and V59: two payload bytes are not three. -/
theorem test_step_lit1 :
    seen (step (decomp 11 [0x03#8, 0x41#8, 0x42#8, 0x43#8, 0x44#8] [])) =
      some ([0x41#8, 0x42#8, 0x43#8], 3, 12, .busy .decompressor) := by decide
theorem test_step_lit1_truncated :
    resultOf (step (decomp 3 [0x03#8, 0xAA#8, 0xBB#8] [])) = some (.fail .truncatedRecord) := by decide
/-- V51. -/
theorem test_step_lit2 :
    seen (step (decomp 2 [0x80#8, 0x02#8, 0xAA#8, 0xBB#8] [0x01#8])) =
      some ([0x01#8, 0xAA#8, 0xBB#8], 3, 12, .busy .decompressor) := by decide
/-- T53's token with a payload. -/
theorem test_step_lit3 :
    seen (step (decomp 2 [0x80#8, 0x80#8, 0x02#8, 0xAA#8, 0xBB#8] [])) =
      some ([0xAA#8, 0xBB#8], 2, 13, .busy .decompressor) := by decide
/-- V52. -/
theorem test_step_lit4 :
    seen (step (decomp 1 [0x80#8, 0x80#8, 0x80#8, 0x01#8, 0x77#8] [])) =
      some ([0x77#8], 1, 13, .busy .decompressor) := by decide
/-- V50's second record; V61. -/
theorem test_step_brep1 :
    seen (step (decomp 4 [0x44#8, 0xEE#8] [])) =
      some ([0xEE#8, 0xEE#8, 0xEE#8, 0xEE#8], 4, 10, .busy .decompressor) := by decide
theorem test_step_brep1_truncated : resultOf (step (decomp 3 [0x43#8] [])) = some (.fail .truncatedRecord) := by decide
/-- V72's first record: `BREP 16`. -/
theorem test_step_brep2 :
    (seen (step (decomp 17 [0xC0#8, 0x10#8, 0xAA#8, 0x01#8, 0xAA#8] []))) =
      some (List.replicate 16 0xAA#8, 16, 11, .busy .decompressor) := by decide
/-- R184, an over-long `BREP 2`. -/
theorem test_step_brep3 :
    seen (step (decomp 2 [0xC0#8, 0x80#8, 0x02#8, 0x5A#8] [])) = some ([0x5A#8, 0x5A#8], 2, 12, .busy .decompressor) := by decide
theorem test_step_brep4 :
    seen (step (decomp 2 [0xC0#8, 0x80#8, 0x80#8, 0x02#8, 0x5A#8] [])) =
      some ([0x5A#8, 0x5A#8], 2, 13, .busy .decompressor) := by decide
/-- V50's third record; V77 restores at an unaligned offset. -/
theorem test_step_wrep1 :
    seen (step (decomp 4 [0x61#8, 0x05#8, 0x06#8, 0x07#8, 0x08#8] [])) =
      some ([0x05#8, 0x06#8, 0x07#8, 0x08#8], 4, 13, .busy .decompressor) := by decide
theorem test_step_wrep1_unaligned :
    seen (step (decomp 9 [0x62#8, 0x01#8, 0x02#8, 0x03#8, 0x04#8] [0x09#8])) =
      some ([0x09#8, 0x01#8, 0x02#8, 0x03#8, 0x04#8, 0x01#8, 0x02#8, 0x03#8, 0x04#8], 9, 13, .busy .decompressor) := by decide
/-- R185, over-long `WREP 1`; V62's payload, one byte short. -/
theorem test_step_wrep2 :
    seen (step (decomp 4 [0xE0#8, 0x01#8, 0x05#8, 0x06#8, 0x07#8, 0x08#8] [])) =
      some ([0x05#8, 0x06#8, 0x07#8, 0x08#8], 4, 14, .busy .decompressor) := by decide
theorem test_step_wrep2_truncated :
    resultOf (step (decomp 8 [0xE0#8, 0x02#8, 0x01#8, 0x02#8, 0x03#8] [])) = some (.fail .truncatedRecord) := by decide
theorem test_step_wrep3 :
    seen (step (decomp 4 [0xE0#8, 0x80#8, 0x01#8, 0x05#8, 0x06#8, 0x07#8, 0x08#8] [])) =
      some ([0x05#8, 0x06#8, 0x07#8, 0x08#8], 4, 15, .busy .decompressor) := by decide
theorem test_step_wrep4 :
    seen (step (decomp 4 [0xE0#8, 0x80#8, 0x80#8, 0x01#8, 0x05#8, 0x06#8, 0x07#8, 0x08#8] [])) =
      some ([0x05#8, 0x06#8, 0x07#8, 0x08#8], 4, 16, .busy .decompressor) := by decide
/-- V71; V63: 6 of 7 payload bytes. -/
theorem test_step_arep1 :
    seen (step (decomp 8 [0x52#8, 0xFF#8, 0x01#8, 0x02#8, 0x03#8, 0x04#8, 0x05#8, 0x06#8] [])) =
      some ([0xFF#8, 0x01#8, 0x02#8, 0x03#8, 0xFF#8, 0x04#8, 0x05#8, 0x06#8], 8, 16, .busy .decompressor) := by decide
theorem test_step_arep1_truncated :
    resultOf (step (decomp 8 [0x52#8, 0xFF#8, 0x01#8, 0x02#8, 0x03#8, 0x04#8, 0x05#8] [])) =
      some (.fail .truncatedRecord) := by decide
/-- R186, over-long `AREP 1`; T59's `AREP 0` still takes its alpha byte (R192). -/
theorem test_step_arep2 :
    seen (step (decomp 4 [0xD0#8, 0x01#8, 0xFF#8, 0x01#8, 0x02#8, 0x03#8] [])) =
      some ([0xFF#8, 0x01#8, 0x02#8, 0x03#8], 4, 14, .busy .decompressor) := by decide
theorem test_step_arep3 :
    seen (step (decomp 4 [0xD0#8, 0x80#8, 0x01#8, 0xFF#8, 0x01#8, 0x02#8, 0x03#8] [])) =
      some ([0xFF#8, 0x01#8, 0x02#8, 0x03#8], 4, 15, .busy .decompressor) := by decide
theorem test_step_arep4 :
    seen (step (decomp 0 [0xD0#8, 0x80#8, 0x80#8, 0x00#8, 0xFF#8] [])) = some ([], 0, 13, .busy .decompressor) := by decide
/-- V54, V55. -/
theorem test_step_reservedWA :
    resultOf (step (decomp 4 [0x71#8, 0x01#8] [])) = some (.fail .malformedToken) ∧
    resultOf (step (decomp 4 [0xF0#8, 0x01#8] [])) = some (.fail .malformedToken) := by decide
/-- V56; V57 is the token that leaves the container. -/
theorem test_step_malformedExt4 :
    resultOf (step (decomp 1 [0x80#8, 0x80#8, 0x80#8, 0x81#8, 0x77#8] [])) = some (.fail .malformedToken) := by decide
theorem test_step_token_leaves :
    resultOf (step (decomp 1 [0x80#8] [])) = some (.fail .malformedToken) := by decide
/-- R181 on V70's container, and on V67, V68. -/
theorem test_step_hdr :
    (nextOf? (step (host (.decompress ⟨header 5, false⟩)))).map (fun t => (t.totalLen, t.cur, t.phase)) =
      some (5#32, 8, .busy .decompressor) := by rfl
theorem test_step_hdr_rejects :
    resultOf (step (host (.decompress ⟨(header 0).take 7, false⟩))) = some (.fail .lengthError) ∧
    resultOf (step (host (.decompress ⟨0x51#8 :: (header 0).drop 1, false⟩))) = some (.fail .invalidHeader) := by
  constructor <;> rfl

/-! ## A table word is what the next step runs (assumption 12) -/

theorem test_fetch_literal :
    seen (step (State.reset.withFetchWord 8 0x03)) = some ([0x00#8, 0x00#8, 0x00#8], 3, 12, .busy .decompressor) := by decide
theorem test_fetch_byteRepeat :
    seen (step (State.reset.withFetchWord 16 0x03C0)) = some ([0x00#8, 0x00#8, 0x00#8], 3, 11, .busy .decompressor) := by decide
theorem test_fetch_malformed :
    resultOf (step (State.reset.withFetchWord 8 0x70)) = some (.fail .malformedToken) ∧
    resultOf (step (State.reset.withFetchWord 32 0x80808080)) = some (.fail .malformedToken) := by decide
theorem test_fetch_header :
    (nextOf? (step (State.reset.withFetchWord 64 0x0000000B2E454C52))).map (fun t => (t.totalLen, t.cur)) =
      some (11#32, 8) := by rfl

/-! ## The classifier, the compressor and the host -/

/-- K1, K2, K4 (41_run_classifier.md R132, R135). -/
theorem test_classify_words :
    (comp true (rep [0x01#8, 0x02#8, 0x03#8, 0x04#8] 5) 0).nextRun = ⟨.wordRepeat, 5⟩ ∧
    (comp true (rep [0x01#8, 0x02#8, 0x03#8, 0x04#8] 5) 1).nextRun = ⟨.literal, 3⟩ ∧
    (comp true (rep [0xAA#8] 10) 0).nextRun = ⟨.byteRepeat, 8⟩ := by decide
/-- V5's input, K18 and K19. -/
def pixelInput : List Byte :=
  [0xFF#8, 0x01#8, 0x02#8, 0x03#8, 0xFF#8, 0x04#8, 0x05#8, 0x06#8, 0xFF#8, 0x07#8, 0x08#8, 0x09#8, 0xFF#8, 0x0A#8, 0x0B#8,
   0x0C#8, 0xFF#8, 0x0D#8, 0x0E#8, 0x0F#8]
theorem test_classify_alpha :
    (comp true pixelInput 0).nextRun = ⟨.alphaRepeat, 5⟩ ∧ (comp false pixelInput 0).nextRun = ⟨.literal, 20⟩ := by decide
/-- V41's input, K28 and K29: trigger (c) has the smaller lookback. -/
def windowInput : List Byte :=
  [0xAA#8, 0xAA#8, 0xAA#8, 0x11#8, 0x80#8, 0x01#8, 0x02#8, 0x03#8, 0x80#8, 0x04#8, 0x05#8, 0x06#8, 0x80#8, 0x07#8, 0x08#8,
   0x09#8, 0x80#8, 0x01#8, 0x03#8, 0x05#8]
theorem test_classify_window :
    (comp true windowInput 3).nextRun = ⟨.literal, 5⟩ ∧ (comp false windowInput 3).nextRun = ⟨.literal, 17⟩ := by decide
/-- V4's record (42_compressor.md R163). -/
theorem test_emit_lit :
    seen (step (comp true [0x10#8, 0x20#8, 0x30#8, 0x11#8, 0x22#8, 0x30#8] 0)) =
      some (header 6 ++ [0x06#8, 0x10#8, 0x20#8, 0x30#8, 0x11#8, 0x22#8, 0x30#8], 15, 6, .busy .compressor) := by decide
/-- V7 (R164). -/
theorem test_emit_brep :
    seen (step (comp true [0xAA#8, 0xAA#8, 0xAA#8] 0)) =
      some (header 3 ++ [0x43#8, 0xAA#8], 10, 3, .busy .compressor) := by decide
/-- V3 (R165). -/
theorem test_emit_wrep :
    seen (step (comp true (rep [0x01#8, 0x02#8, 0x03#8, 0x04#8] 5) 0)) =
      some (header 20 ++ [0x65#8, 0x01#8, 0x02#8, 0x03#8, 0x04#8], 13, 20, .busy .compressor) := by decide
/-- V5 (R166). -/
theorem test_emit_arep :
    seen (step (comp true pixelInput 0)) =
      some (header 20 ++ [0x55#8, 0xFF#8, 0x01#8, 0x02#8, 0x03#8, 0x04#8, 0x05#8, 0x06#8, 0x07#8, 0x08#8, 0x09#8, 0x0A#8,
        0x0B#8, 0x0C#8, 0x0D#8, 0x0E#8, 0x0F#8], 25, 20, .busy .compressor) := by decide
/-- V80, V81, V82 (44_host_interface.md R201, R202). -/
theorem test_queries :
    headerReply (header 10) = .value 0x2E454C52 ∧ declaredLengthReply (header 10) = .value 10 ∧
    headerReply [0x52#8, 0x4C#8, 0x45#8, 0x2F#8, 0x00#8, 0x01#8, 0x00#8, 0x00#8] = .value 0x2F454C52 ∧
    declaredLengthReply [0x52#8, 0x4C#8, 0x45#8, 0x2F#8, 0x00#8, 0x01#8, 0x00#8, 0x00#8] = .value 256 ∧
    headerReply ((header 0).take 7) = .fail .lengthError ∧ declaredLengthReply ((header 0).take 7) = .fail .lengthError := by
  decide
/-- V64, V65, V70 (43_decompressor.md R188), the container consumed. -/
theorem test_decompress_end :
    resultOf (step (decomp 1 [] [])) = some (.fail .lengthMismatch) ∧
    resultOf (step (decomp 0 [] [0x01#8])) = some (.fail .lengthMismatch) ∧ resultOf (step (decomp 0 [] [])) = some (.ok 0) := by
  decide

/-! ## Witnesses: for each obligation with hypotheses, operands and states that meet all of them together, clause by clause and
at the ends of the ranges -/

theorem witness_DecodeOfEncode :
    (Instr.lit4 134217727).wf = true ∧ decode .record (encode (.lit4 134217727) ++ [0xAA#8]) = .ok (.lit4 134217727) := by
  decide
theorem witness_DecodeReadsEncoding :
    decode .record [0x80#8, 0x05#8, 0xAA#8] = .ok (.lit2 5) ∧ decode .header (header 5) = .ok (.hdr 5#32) := by decide
theorem witness_UnpackOfPack : 134217727 ≤ Kind.literal.maxLen ∧ 33554431 ≤ Kind.alphaRepeat.maxLen := by decide
theorem witness_PackIsShortest :
    2 ^ (Kind.byteRepeat.firstBits + 21) ≤ 33554432 ∧ 33554431 < 2 ^ (Kind.byteRepeat.firstBits + 21) ∧
    pack .byteRepeat 2048 = .ok [0xC0#8, 0x90#8, 0x00#8] ∧ 1 ≤ 2 ∧ 2 < [0xC0#8, 0x90#8, 0x00#8].length := by decide
theorem witness_UnpackAcceptsEveryForm :
    33554431 < 2 ^ (Kind.wordRepeat.firstBits + 7 * (4 - 1)) ∧ 0 < 2 ^ (Kind.literal.firstBits + 7 * (1 - 1)) ∧
    unpack [0xD0#8, 0x80#8, 0x80#8, 0x00#8] = .ok ⟨.alphaRepeat, 0, 4⟩ := by decide
theorem witness_MalformedTokenExactly :
    unpack [0x70#8] = .error .reservedFlags ∧ unpack [0x80#8, 0x80#8, 0x80#8, 0x80#8] = .error .fifthByte ∧
    unpack [0xC0#8, 0x80#8] = .error .leavesContainer := by decide
theorem witness_UnpackReadsOnlyItsToken : unpack [0xC0#8, 0x10#8, 0xAA#8] = .ok ⟨.byteRepeat, 16, 2⟩ := by decide
/-- The ends of the ten ranges of 30_encoding.md R94, each with bytes that give the clause's token or failure. -/
theorem witness_FirstByteMap :
    unpack [0x00#8] = .ok ⟨.literal, 0, 1⟩ ∧ unpack [0x3F#8] = .ok ⟨.literal, 0x3F, 1⟩ ∧
    unpack [0x40#8] = .ok ⟨.byteRepeat, 0, 1⟩ ∧ unpack [0x4F#8] = .ok ⟨.byteRepeat, 15, 1⟩ ∧
    unpack [0x50#8] = .ok ⟨.alphaRepeat, 0, 1⟩ ∧ unpack [0x5F#8] = .ok ⟨.alphaRepeat, 15, 1⟩ ∧
    unpack [0x60#8] = .ok ⟨.wordRepeat, 0, 1⟩ ∧ unpack [0x6F#8] = .ok ⟨.wordRepeat, 15, 1⟩ ∧
    unpack [0x70#8] = .error .reservedFlags ∧ unpack [0x7F#8] = .error .reservedFlags ∧
    unpack [0x80#8, 0x05#8] = .ok ⟨.literal, 5, 2⟩ ∧ unpack [0xBF#8, 0x7F#8] = .ok ⟨.literal, 8191, 2⟩ ∧
    unpack [0xC0#8, 0x00#8] = .ok ⟨.byteRepeat, 0, 2⟩ ∧ unpack [0xCF#8, 0x7F#8] = .ok ⟨.byteRepeat, 2047, 2⟩ ∧
    unpack [0xD0#8, 0x00#8] = .ok ⟨.alphaRepeat, 0, 2⟩ ∧ unpack [0xDF#8, 0x7F#8] = .ok ⟨.alphaRepeat, 2047, 2⟩ ∧
    unpack [0xE0#8, 0x00#8] = .ok ⟨.wordRepeat, 0, 2⟩ ∧ unpack [0xEF#8, 0x7F#8] = .ok ⟨.wordRepeat, 2047, 2⟩ ∧
    unpack [0xF0#8] = .error .reservedFlags ∧ unpack [0xFF#8] = .error .reservedFlags := by decide

theorem witness_StepRunsRecord :
    (decomp 2 [0x43#8, 0xAA#8] []).phase = .busy .decompressor ∧
    (decomp 2 [0x43#8, 0xAA#8] []).cur < (decomp 2 [0x43#8, 0xAA#8] []).inLen ∧
    decode .record ((decomp 2 [0x43#8, 0xAA#8] []).window 8 4) = .ok (.brep1 3) := by decide
theorem witness_TokenLeavingContainerRaises :
    (decomp 1 [0x80#8] []).phase = .busy .decompressor ∧ (decomp 1 [0x80#8] []).cur < (decomp 1 [0x80#8] []).inLen ∧
    decode .record ((decomp 1 [0x80#8] []).window 8 4) = .error .leavesContainer := by decide
theorem witness_StepRunsHeader :
    (host (.decompress ⟨header 5, false⟩)).free ∧ (host (.decompress ⟨header 5, false⟩)).calls = [.decompress ⟨header 5, false⟩] ∧
    (header 5).length < 2 ^ 32 ∧ decode .header ((header 5).take 8) = .ok (.hdr 5#32) :=
  ⟨.inl rfl, rfl, by decide, by decide⟩

/-- Each record row: a payload that ends with the container, and one that is a byte short. -/
theorem witness_LitRecordExecutes :
    (Instr.lit2 2, 2) ∈ litForms 2 ∧
    (decomp 2 [0x80#8, 0x02#8, 0xAA#8, 0xBB#8] []).cur + 2 + 2 = (decomp 2 [0x80#8, 0x02#8, 0xAA#8, 0xBB#8] []).inLen ∧
    (decomp 2 [0x80#8, 0x02#8, 0xAA#8] []).inLen + 1 = (decomp 2 [0x80#8, 0x02#8, 0xAA#8] []).cur + 2 + 2 := by decide
theorem witness_BrepRecordExecutes :
    (Instr.brep1 3, 1) ∈ brepForms 3 ∧ (decomp 3 [0x43#8, 0xAA#8] []).cur + 1 + 1 = (decomp 3 [0x43#8, 0xAA#8] []).inLen ∧
    (decomp 3 [0x43#8] []).inLen + 1 = (decomp 3 [0x43#8] []).cur + 1 + 1 := by decide
theorem witness_WrepRecordExecutes :
    (Instr.wrep1 2, 1) ∈ wrepForms 2 ∧
    (decomp 8 [0x62#8, 1, 2, 3, 4] []).cur + 1 + 4 = (decomp 8 [0x62#8, 1, 2, 3, 4] []).inLen ∧
    (decomp 8 [0x62#8, 1, 2, 3] []).inLen + 1 = (decomp 8 [0x62#8, 1, 2, 3] []).cur + 1 + 4 := by decide
theorem witness_ArepRecordExecutes :
    (Instr.arep4 1, 4) ∈ arepForms 1 ∧
    (decomp 4 [0xD0#8, 0x80#8, 0x80#8, 0x01#8, 1, 2, 3, 4] []).cur + 4 + 1 + 3 * 1 =
      (decomp 4 [0xD0#8, 0x80#8, 0x80#8, 0x01#8, 1, 2, 3, 4] []).inLen ∧
    (decomp 4 [0xD0#8, 0x80#8, 0x80#8, 0x01#8, 1, 2, 3] []).inLen + 1 =
      (decomp 4 [0xD0#8, 0x80#8, 0x80#8, 0x01#8, 1, 2, 3] []).cur + 4 + 1 + 3 * 1 := by decide
theorem witness_RowFrame :
    exec (.lit1 2) (decomp 2 [0x02#8, 0xAA#8, 0xBB#8] []) = .next { decomp 2 [0x02#8, 0xAA#8, 0xBB#8] [] with
      out := [0xAA#8, 0xBB#8], outCnt := 2, cur := 11 } := by rfl
theorem witness_RowFrame_failure :
    exec (.lit1 2) (decomp 2 [0x02#8, 0xAA#8] []) =
      .next { decomp 2 [0x02#8, 0xAA#8] [] with result := .fail .truncatedRecord, phase := .done } ∧
    ∀ w, Instr.lit1 2 ≠ .hdr w := ⟨by rfl, by simp⟩
/-- V53's records, each at the container's end. -/
theorem witness_ZeroLengthRecords :
    (Instr.lit1 0, 1) ∈ litForms 0 ∧ (decomp 0 [0x00#8] []).cur + 1 = (decomp 0 [0x00#8] []).inLen ∧
    (Instr.brep1 0, 1) ∈ brepForms 0 ∧ (decomp 0 [0x40#8, 0xAA#8] []).cur + 1 + 1 = (decomp 0 [0x40#8, 0xAA#8] []).inLen ∧
    (Instr.wrep1 0, 1) ∈ wrepForms 0 ∧ (decomp 0 [0x60#8, 1, 2, 3, 4] []).cur + 1 + 4 = (decomp 0 [0x60#8, 1, 2, 3, 4] []).inLen ∧
    (Instr.arep1 0, 1) ∈ arepForms 0 ∧ (decomp 0 [0x50#8, 0xFF#8] []).cur + 1 + 1 = (decomp 0 [0x50#8, 0xFF#8] []).inLen := by
  decide

/-- A reader of the bytes of a list, for the classifier's witnesses. -/
def reader (bytes : List Byte) (a : Nat) : Byte := bytes.getD a 0#8

theorem witness_ClassifySound :
    0 < 4 ∧ classify (reader [9, 9, 9, 9]) 4 0 true = ⟨.byteRepeat, 4⟩ ∧
    0 < 8 ∧ classify (reader [1, 2, 3, 4, 1, 2, 3, 4]) 8 0 true = ⟨.wordRepeat, 2⟩ ∧
    0 < 20 ∧ classify (reader pixelInput) 20 0 true = ⟨.alphaRepeat, 5⟩ := by decide
/-- Two readers that differ outside the part they must share. -/
theorem witness_ClassifyReadsAhead :
    1 < 3 ∧ (∀ a, 1 ≤ a → a < 3 → reader [7, 1, 2, 7] a = reader [8, 1, 2, 9] a) ∧ reader [7, 1, 2, 7] 0 ≠ reader [8, 1, 2, 9] 0 := by
  refine ⟨by decide, fun a h1 h2 => ?_, by decide⟩
  obtain rfl | rfl : a = 1 ∨ a = 2 := by omega
  all_goals decide
/-- K4 (the count stops at a partial word), and V3's word; `n = 2` is the least. -/
theorem witness_WordStepExact :
    (∀ j, j < 2 → ∀ i, i < 4 → reader (List.replicate 10 0xAA#8) (0 + 4 * j + i) = reader (List.replicate 10 0xAA#8) (0 + i)) ∧
    ¬ 0 + 4 * 2 + 4 ≤ 10 ∧ (∀ i, i < 4 → reader (List.replicate 10 0xAA#8) (0 + i) = reader (List.replicate 10 0xAA#8) 0) ∧
    (∀ j, j < 2 → ∀ i, i < 4 → reader [1, 2, 3, 4, 1, 2, 3, 4, 1, 2, 3, 5] (0 + 4 * j + i) =
      reader [1, 2, 3, 4, 1, 2, 3, 4, 1, 2, 3, 5] (0 + i)) ∧
    (3 < 4 ∧ reader [1, 2, 3, 4, 1, 2, 3, 4, 1, 2, 3, 5] (0 + 4 * 2 + 3) ≠ reader [1, 2, 3, 4, 1, 2, 3, 4, 1, 2, 3, 5] (0 + 3)) ∧
    (1 < 4 ∧ reader [1, 2, 3, 4, 1, 2, 3, 4, 1, 2, 3, 5] (0 + 1) ≠ reader [1, 2, 3, 4, 1, 2, 3, 4, 1, 2, 3, 5] 0) := by
  decide
/-- `c = 3`, the least, at an aligned cursor, ended by a different byte and by the buffer's end. -/
theorem witness_ByteStepExact :
    ¬ 0 + 8 ≤ 4 ∧ 0 + 3 ≤ 4 ∧ (∀ j, j < 3 → reader [5, 5, 5, 6] (0 + j) = reader [5, 5, 5, 6] 0) ∧
    reader [5, 5, 5, 6] (0 + 3) ≠ reader [5, 5, 5, 6] 0 ∧
    (∀ j, j < 3 → reader [5, 5, 5] (0 + j) = reader [5, 5, 5] 0) ∧ ¬ 0 + 3 < 3 := by decide
/-- V26's input (K21): three pixels, the fourth begins an identical pair. -/
def pairInput : List Byte :=
  [0xFF#8, 0x01#8, 0x02#8, 0x03#8, 0xFF#8, 0x04#8, 0x05#8, 0x06#8, 0xFF#8, 0x07#8, 0x08#8, 0x09#8, 0xFF#8, 0x0A#8, 0x0B#8,
   0x0C#8, 0xFF#8, 0x0A#8, 0x0B#8, 0x0C#8, 0xFF#8, 0x01#8, 0x01#8, 0x02#8]
theorem witness_AlphaStepExact :
    (1 < 4 ∧ reader pairInput (0 + 4 + 1) ≠ reader pairInput (0 + 1)) ∧
    ¬ (reader pairInput (0 + 1) = reader pairInput 0 ∧ reader pairInput (0 + 2) = reader pairInput 0) ∧
    0 + 4 * 3 ≤ 24 ∧ (∀ j, j < 3 → reader pairInput (0 + 4 * j) = reader pairInput 0) ∧
    (1 < 4 ∧ reader pairInput (0 + 4 * 1 + 1) ≠ reader pairInput (0 + 4 * 1 + 4 + 1)) ∧
    (1 < 4 ∧ reader pairInput (0 + 4 * 2 + 1) ≠ reader pairInput (0 + 4 * 2 + 4 + 1)) ∧
    (0 + 4 * 3 + 8 ≤ 24 ∧ ∀ i, i < 4 → reader pairInput (0 + 4 * 3 + i) = reader pairInput (0 + 4 * 3 + 4 + i)) ∧
    classify (reader pairInput) 24 0 true = ⟨.alphaRepeat, 3⟩ := by decide
/-- Steps 1 to 3 do not classify, and the literal ends by trigger (a) (V21), (b) (V24), (c) (V41) and by the buffer's end (V4). -/
theorem witness_LiteralStepExact :
    (classifyWord (reader [1, 2, 5, 5, 5]) 5 0 = none ∧ classifyByte (reader [1, 2, 5, 5, 5]) 5 0 = none ∧
      classifyAlpha (reader [1, 2, 5, 5, 5]) 5 0 true = none ∧ scanLiteral (reader [1, 2, 5, 5, 5]) 0 true 2 3 = some 2) ∧
    (classifyWord (reader [9, 1, 2, 3, 5, 6, 7, 8, 5, 6, 7, 8, 1]) 13 0 = none ∧
      classifyByte (reader [9, 1, 2, 3, 5, 6, 7, 8, 5, 6, 7, 8, 1]) 13 0 = none ∧
      classifyAlpha (reader [9, 1, 2, 3, 5, 6, 7, 8, 5, 6, 7, 8, 1]) 13 0 true = none ∧
      scanLiteral (reader [9, 1, 2, 3, 5, 6, 7, 8, 5, 6, 7, 8, 1]) 0 true 10 3 = some 4) ∧
    (classifyWord (reader windowInput) 20 3 = none ∧ classifyByte (reader windowInput) 20 3 = none ∧
      classifyAlpha (reader windowInput) 20 3 true = none ∧ scanLiteral (reader windowInput) 3 true 14 6 = some 5) ∧
    (classifyWord (reader [1, 2, 3]) 3 0 = none ∧ classifyByte (reader [1, 2, 3]) 3 0 = none ∧
      classifyAlpha (reader [1, 2, 3]) 3 0 true = none) := by decide

theorem witness_CompressStartEmitsHeader :
    (host (.compress ⟨[0x7E#8], false⟩)).free ∧ (host (.compress ⟨[0x7E#8], false⟩)).calls = [.compress ⟨[0x7E#8], false⟩] ∧
    [0x7E#8].length < 2 ^ 32 := ⟨.inl rfl, rfl, by decide⟩
theorem witness_CompressorEmitsLit :
    (comp true [0x7E#8] 0).phase = .busy .compressor ∧ (comp true [0x7E#8] 0).cur < (comp true [0x7E#8] 0).inLen ∧
    (comp true [0x7E#8] 0).nextRun = ⟨.literal, 1⟩ ∧ 1 ≤ 2 ^ 27 - 1 := by decide
theorem witness_CompressorEmitsBrep :
    (comp true [9, 9, 9] 0).phase = .busy .compressor ∧ (comp true [9, 9, 9] 0).cur < (comp true [9, 9, 9] 0).inLen ∧
    (comp true [9, 9, 9] 0).nextRun = ⟨.byteRepeat, 3⟩ ∧ 3 ≤ 2 ^ 25 - 1 := by decide
theorem witness_CompressorEmitsWrep :
    (comp true [1, 2, 3, 4, 1, 2, 3, 4] 0).phase = .busy .compressor ∧
    (comp true [1, 2, 3, 4, 1, 2, 3, 4] 0).cur < (comp true [1, 2, 3, 4, 1, 2, 3, 4] 0).inLen ∧
    (comp true [1, 2, 3, 4, 1, 2, 3, 4] 0).nextRun = ⟨.wordRepeat, 2⟩ ∧ 2 ≤ 2 ^ 25 - 1 := by decide
theorem witness_CompressorEmitsArep :
    (comp true pixelInput 0).phase = .busy .compressor ∧ (comp true pixelInput 0).cur < (comp true pixelInput 0).inLen ∧
    (comp true pixelInput 0).nextRun = ⟨.alphaRepeat, 5⟩ ∧ 5 ≤ 2 ^ 25 - 1 := by decide

/-! Runs too long for any token (42_compressor.md R168), the least length of each kind: buffers of 2^25 or 2^27 bytes, given by a
repeated block and never written out. -/

/-- A compressor at the start of `n` copies of `v`. -/
def longInput (alpha : Bool) (v : List Byte) (n : Nat) : State :=
  { State.reset with
    phase := .busy .compressor, cfgAlpha := alpha, inp := Memory.load 0 (rep v n), inLen := n * v.length }

/-- The byte `a` of a repeated block. -/
theorem longInput_read (alpha : Bool) (v : List Byte) (n a : Nat) (h : a < n * v.length) :
    some ((longInput alpha v n).inByte a) = v[a % v.length]? := by
  have hv : 0 < v.length := by
    rcases Nat.eq_zero_or_pos v.length with h0 | h0
    · rw [h0, Nat.mul_zero] at h; omega
    · exact h0
  have hr := (Memory.read_load (rep v n) 0 a).1
  rw [Nat.zero_add] at hr
  change some (Memory.read (Memory.load 0 (rep v n)) a) = _
  have hg := rep_getElem? v n (a / v.length) (a % v.length) (Nat.div_lt_of_lt_mul (by rw [Nat.mul_comm]; exact h)) (Nat.mod_lt _ hv)
  rw [Nat.div_add_mod] at hg
  rw [hr, List.getD_eq_getElem?_getD, hg]
  rw [List.getElem?_eq_getElem (Nat.mod_lt _ hv)]; rfl

/-- The same for a block of four bytes. -/
theorem longInput_read4 (alpha : Bool) (b0 b1 b2 b3 : Byte) (n j i : Nat) (hj : j < n) (hi : i < 4) :
    some ((longInput alpha [b0, b1, b2, b3] n).inByte (4 * j + i)) = [b0, b1, b2, b3][i]? := by
  have := longInput_read alpha [b0, b1, b2, b3] n (4 * j + i) (by simp only [List.length_cons, List.length_nil]; omega)
  rw [this]; congr 1; simp only [List.length_cons, List.length_nil]; omega

/-- `n > 1` copies of one word are counted to the end by step 1 (41_run_classifier.md R132). -/
theorem longInput_word (alpha : Bool) (b0 b1 b2 b3 : Byte) (n : Nat) (hn : 2 ≤ n) :
    (longInput alpha [b0, b1, b2, b3] n).nextRun =
      if broadcast (longInput alpha [b0, b1, b2, b3] n).inByte 0 then ⟨.byteRepeat, 4 * n⟩ else ⟨.wordRepeat, n⟩ := by
  have rd := longInput_read4 alpha b0 b1 b2 b3 n
  have hl : (longInput alpha [b0, b1, b2, b3] n).inLen = n * 4 := rfl
  have hc : (longInput alpha [b0, b1, b2, b3] n).cur = 0 := rfl
  unfold State.nextRun
  rw [hl, hc]
  generalize (longInput alpha [b0, b1, b2, b3] n).inByte = f at rd ⊢
  have hcount : countWhile (moreWords f (n * 4) 0) (n * 4 - 0) 1 = n := by
    apply countWhile_eq _ _ _ _ (by omega) (by omega)
    · intro j h1 hj
      refine (moreWords_iff _ _ _ _).mpr ⟨by omega, fun i hi => ?_⟩
      have a := rd j i hj hi
      have b := rd 0 i (by omega) hi
      rw [← b] at a
      rw [Nat.zero_add, Nat.zero_add]
      simpa using a
    · rw [← Bool.not_eq_true, moreWords_iff]; omega
  have hw : classifyWord f (n * 4) 0 = if broadcast f 0 then some ⟨.byteRepeat, 4 * n⟩ else some ⟨.wordRepeat, n⟩ := by
    unfold classifyWord
    rw [if_pos (by simp; omega)]; simp only [hcount]; rw [if_pos (by omega)]
  unfold classify
  rw [hw]
  cases broadcast f 0 <;> rfl

theorem witness_CompressorEmitsBrep_overflow :
    (longInput true [9, 9, 9, 9] (2 ^ 23)).phase = .busy .compressor ∧
    (longInput true [9, 9, 9, 9] (2 ^ 23)).cur < (longInput true [9, 9, 9, 9] (2 ^ 23)).inLen ∧
    (longInput true [9, 9, 9, 9] (2 ^ 23)).nextRun = ⟨.byteRepeat, 2 ^ 25⟩ ∧ 2 ^ 25 - 1 < 2 ^ 25 := by
  refine ⟨rfl, by decide, ?_, by decide⟩
  rw [longInput_word true 9 9 9 9 (2 ^ 23) (by decide)]
  refine if_pos ((broadcast_iff _ _).mpr ?_)
  intro i hi
  have a := longInput_read4 true 9 9 9 9 (2 ^ 23) 0 i (by decide) hi
  have b := longInput_read4 true 9 9 9 9 (2 ^ 23) 0 0 (by decide) (by decide)
  obtain rfl | rfl | rfl | rfl : i = 0 ∨ i = 1 ∨ i = 2 ∨ i = 3 := by omega
  all_goals exact Option.some.inj (a.trans b.symm)

theorem witness_CompressorEmitsWrep_overflow :
    (longInput true [1, 2, 3, 4] (2 ^ 25)).phase = .busy .compressor ∧
    (longInput true [1, 2, 3, 4] (2 ^ 25)).cur < (longInput true [1, 2, 3, 4] (2 ^ 25)).inLen ∧
    (longInput true [1, 2, 3, 4] (2 ^ 25)).nextRun = ⟨.wordRepeat, 2 ^ 25⟩ ∧ 2 ^ 25 - 1 < 2 ^ 25 := by
  refine ⟨rfl, by decide, ?_, by decide⟩
  rw [longInput_word true 1 2 3 4 (2 ^ 25) (by decide)]
  refine if_neg (fun hb => ?_)
  have h := (broadcast_iff _ _).mp hb
  have a := longInput_read4 true 1 2 3 4 (2 ^ 25) 0 1 (by decide) (by decide)
  have b := longInput_read4 true 1 2 3 4 (2 ^ 25) 0 0 (by decide) (by decide)
  have e := h 1 (by decide)
  have a' := Option.some.inj a
  have b' := Option.some.inj b
  rw [show 0 + 1 = 4 * 0 + 1 from rfl, a', show (0 : Nat) = 4 * 0 + 0 from rfl, b'] at e
  exact absurd e (by decide)

/-- Blocks of two different pixels with one alpha byte: step 3 counts them all (R134). -/
theorem longInput_pixels (n : Nat) (hn : 2 ≤ n) :
    (longInput true [7, 0, 0, 0, 7, 1, 0, 0] n).nextRun = ⟨.alphaRepeat, 2 * n⟩ := by
  have rd := longInput_read true [7, 0, 0, 0, 7, 1, 0, 0] n
  have hl : (longInput true [7, 0, 0, 0, 7, 1, 0, 0] n).inLen = n * 8 := rfl
  have hc : (longInput true [7, 0, 0, 0, 7, 1, 0, 0] n).cur = 0 := rfl
  have ha : (longInput true [7, 0, 0, 0, 7, 1, 0, 0] n).cfgAlpha = true := rfl
  unfold State.nextRun
  rw [hl, hc, ha]
  generalize (longInput true [7, 0, 0, 0, 7, 1, 0, 0] n).inByte = f at rd ⊢
  have r0 : ∀ j, j < 2 * n → f (4 * j) = 7 := by
    intro j hj
    have := rd (4 * j) (by simp only [List.length_cons, List.length_nil]; omega)
    simp only [List.length_cons, List.length_nil] at this
    obtain h | h : 4 * j % 8 = 0 ∨ 4 * j % 8 = 4 := by omega
    all_goals rw [show (0 + 1 + 1 + 1 + 1 + 1 + 1 + 1 + 1 : Nat) = 8 from rfl, h] at this; simpa using this
  have r1 : ∀ j, j < 2 * n → f (4 * j + 1) = if j % 2 = 0 then 0 else 1 := by
    intro j hj
    have := rd (4 * j + 1) (by simp only [List.length_cons, List.length_nil]; omega)
    simp only [List.length_cons, List.length_nil] at this
    rw [show (0 + 1 + 1 + 1 + 1 + 1 + 1 + 1 + 1 : Nat) = 8 from rfl] at this
    obtain ⟨h, e⟩ | ⟨h, e⟩ : ((4 * j + 1) % 8 = 1 ∧ j % 2 = 0) ∨ ((4 * j + 1) % 8 = 5 ∧ j % 2 ≠ 0) := by omega
    · rw [h] at this; rw [if_pos e]; simpa using this
    · rw [h] at this; rw [if_neg e]; simpa using this
  have ne : ∀ j, j + 1 < 2 * n → f (4 * j + 1) ≠ f (4 * j + 4 + 1) := by
    intro j hj
    rw [r1 j (by omega), show 4 * j + 4 + 1 = 4 * (j + 1) + 1 by omega, r1 (j + 1) (by omega)]
    obtain h | h : j % 2 = 0 ∨ j % 2 = 1 := by omega
    · rw [if_pos h, if_neg (by omega)]; decide
    · rw [if_neg (by omega), if_pos (by omega)]; decide
  have z := r0 0 (by omega)
  have z1 := r1 0 (by omega)
  have w1 : countWhile (moreWords f (n * 8) 0) (n * 8 - 0) 1 = 1 := by
    apply countWhile_eq _ _ _ _ (by omega) (by omega) (fun j h1 h2 => by omega)
    rw [← Bool.not_eq_true, moreWords_iff]
    rintro ⟨-, h⟩
    have := ne 0 (by omega)
    exact this (by simpa using (h 1 (by decide)).symm)
  have b1 : countWhile (moreBytes f (n * 8) 0) (n * 8 - 0) 1 = 1 := by
    apply countWhile_eq _ _ _ _ (by omega) (by omega) (fun j h1 h2 => by omega)
    rw [← Bool.not_eq_true, moreBytes_iff]
    rintro ⟨-, h⟩
    simp only [Nat.mul_zero, Nat.zero_add, Nat.zero_mod, if_true] at h z z1
    rw [z, z1] at h; exact absurd h (by decide)
  have a1 : countWhile (morePixels f (n * 8) 0) (n * 8 - 0) 1 = 2 * n := by
    apply countWhile_eq _ _ _ _ (by omega) (by omega)
    · intro j h1 hj
      refine (morePixels_iff _ _ _ _).mpr ⟨by omega, ?_, fun h8 => ⟨1, by decide, ?_⟩⟩
      · rw [Nat.zero_add, r0 j hj, ← z]
      · rw [Nat.zero_add]; exact ne j (by omega)
    · rw [← Bool.not_eq_true, morePixels_iff]; omega
  unfold classify classifyWord classifyByte classifyAlpha
  simp only [w1, b1, a1]
  rw [if_pos (by simp; omega), if_neg (by omega)]
  simp only
  rw [if_neg (by omega)]
  simp only
  rw [if_pos (by simp; omega), if_pos (by omega)]

theorem witness_CompressorEmitsArep_overflow :
    (longInput true [7, 0, 0, 0, 7, 1, 0, 0] (2 ^ 24)).phase = .busy .compressor ∧
    (longInput true [7, 0, 0, 0, 7, 1, 0, 0] (2 ^ 24)).cur < (longInput true [7, 0, 0, 0, 7, 1, 0, 0] (2 ^ 24)).inLen ∧
    (longInput true [7, 0, 0, 0, 7, 1, 0, 0] (2 ^ 24)).nextRun = ⟨.alphaRepeat, 2 ^ 25⟩ ∧ 2 ^ 25 - 1 < 2 ^ 25 :=
  ⟨rfl, by decide, longInput_pixels (2 ^ 24) (by decide), by decide⟩

/-- A block of eight rising bytes fires no trigger with `CFG.alpha` 0: one literal to the end (R135, R136). -/
theorem longInput_literal (n : Nat) (hn : 1 ≤ n) :
    (longInput false [0, 1, 2, 3, 4, 5, 6, 7] n).nextRun = ⟨.literal, n * 8⟩ := by
  have rd := longInput_read false [0, 1, 2, 3, 4, 5, 6, 7] n
  have hl : (longInput false [0, 1, 2, 3, 4, 5, 6, 7] n).inLen = n * 8 := rfl
  have hc : (longInput false [0, 1, 2, 3, 4, 5, 6, 7] n).cur = 0 := rfl
  have ha : (longInput false [0, 1, 2, 3, 4, 5, 6, 7] n).cfgAlpha = false := rfl
  unfold State.nextRun
  rw [hl, hc, ha]
  generalize (longInput false [0, 1, 2, 3, 4, 5, 6, 7] n).inByte = f at rd ⊢
  have tbl : ∀ i : Fin 8, ([0, 1, 2, 3, 4, 5, 6, 7] : List Byte)[i.val]? = some (BitVec.ofNat 8 i.val) := by decide
  have v : ∀ a, a < n * 8 → (f a).toNat = a % 8 := by
    intro a h
    have := rd a h
    rw [show ([0, 1, 2, 3, 4, 5, 6, 7] : List Byte).length = 8 from rfl, tbl ⟨a % 8, Nat.mod_lt _ (by decide)⟩] at this
    rw [Option.some.inj this, BitVec.toNat_ofNat]; simp only; omega
  have ne : ∀ a b, a < n * 8 → b < n * 8 → a % 8 ≠ b % 8 → f a ≠ f b := by
    intro a b h1 h2 h e; rw [← v a h1, ← v b h2, e] at h; exact h rfl
  have w1 : countWhile (moreWords f (n * 8) 0) (n * 8 - 0) 1 = 1 := by
    apply countWhile_eq _ _ _ _ (by omega) (by omega) (fun j h1 h2 => by omega)
    rw [← Bool.not_eq_true, moreWords_iff]
    rintro ⟨h4, h⟩
    exact ne _ _ (by omega) (by omega) (by decide) (h 0 (by decide))
  have b1 : countWhile (moreBytes f (n * 8) 0) (n * 8 - 0) 1 = 1 := by
    apply countWhile_eq _ _ _ _ (by omega) (by omega) (fun j h1 h2 => by omega)
    rw [← Bool.not_eq_true, moreBytes_iff]
    rintro ⟨h4, h⟩
    exact ne _ _ (by omega) (by omega) (by decide) h
  have s1 : scanLiteral f 0 false (n * 8 - (0 + 3)) (0 + 3) = none := by
    obtain ⟨e, -⟩ | ⟨j, h3, hj, -, ⟨h, -⟩ | ⟨-, h, -⟩ | ⟨-, -, h, -⟩⟩ := scanLiteral_cases f 0 false (n * 8 - (0 + 3)) (0 + 3)
    · exact e
    · exact absurd ((triggerByte_iff _ _).mp h).1 (ne _ _ (by omega) (by omega) (by omega))
    · obtain ⟨-, h7, hw⟩ := (triggerWord_iff _ _ _).mp h
      exact absurd (hw 0 (by decide)) (ne _ _ (by omega) (by omega) (by omega))
    · obtain ⟨e, -⟩ := (triggerAlpha_iff _ _ _ _).mp h; cases e
  unfold classify classifyWord classifyByte classifyAlpha classifyLiteral
  simp only [w1, b1, s1]
  rw [if_pos (by simp; omega), if_neg (by omega)]
  simp only
  rw [if_neg (by omega)]
  simp

theorem witness_CompressorEmitsLit_overflow :
    (longInput false [0, 1, 2, 3, 4, 5, 6, 7] (2 ^ 24)).phase = .busy .compressor ∧
    (longInput false [0, 1, 2, 3, 4, 5, 6, 7] (2 ^ 24)).cur < (longInput false [0, 1, 2, 3, 4, 5, 6, 7] (2 ^ 24)).inLen ∧
    (longInput false [0, 1, 2, 3, 4, 5, 6, 7] (2 ^ 24)).nextRun = ⟨.literal, 2 ^ 27⟩ ∧ 2 ^ 27 - 1 < 2 ^ 27 :=
  ⟨rfl, by decide, longInput_literal (2 ^ 24) (by decide), by decide⟩

theorem witness_CompressorEnds :
    (comp true [0x7E#8] 1).phase = .busy .compressor ∧ (comp true [0x7E#8] 1).cur = (comp true [0x7E#8] 1).inLen := by decide

/-- A short buffer, a wrong magic, a right one, each at 8 or 7 bytes. -/
theorem witness_DecompressStartChecksHeader :
    (host (.decompress ⟨(header 0).take 7, false⟩)).free ∧ ((header 0).take 7).length < 8 ∧
    8 ≤ (0x51#8 :: (header 0).drop 1).length ∧ (0x51#8 :: (header 0).drop 1).take 4 ≠ [0x52#8, 0x4C#8, 0x45#8, 0x2E#8] ∧
    8 ≤ (header 0).length ∧ (header 0).take 4 = [0x52#8, 0x4C#8, 0x45#8, 0x2E#8] ∧ (header 0).length < 2 ^ 32 :=
  ⟨.inl rfl, by decide, by decide, by decide, by decide, by decide, by decide⟩
theorem witness_DecompressorEnds :
    (decomp 1 [] [0xAA#8]).phase = .busy .decompressor ∧ (decomp 1 [] [0xAA#8]).cur = (decomp 1 [] [0xAA#8]).inLen ∧
    (decomp 1 [] [0xAA#8]).outCnt = (decomp 1 [] [0xAA#8]).totalLen.toNat ∧
    (decomp 2 [] [0xAA#8]).outCnt ≠ (decomp 2 [] [0xAA#8]).totalLen.toNat := by decide

/-- A decompressor's state keeps the invariant. -/
theorem decomp_inv : (decomp 1 [0x01#8, 0x77#8] []).Inv ∧ (decomp 1 [] [0x77#8]).Inv :=
  ⟨⟨by decide, by decide, rfl, fun _ _ => by decide, fun _ => by decide, fun h => by cases h⟩,
    ⟨by decide, by decide, rfl, fun _ _ => by decide, fun _ => by decide, fun h => by cases h⟩⟩
/-- A compressor's state keeps the invariant. -/
theorem comp_inv : (comp true [0x7E#8] 0).Inv :=
  ⟨by decide, by decide, rfl, fun _ _ => by decide, fun h => (by cases h), fun h => by cases h⟩
theorem witness_DecompressSuccessMatchesTotal :
    (decomp 1 [] [0x77#8]).Inv ∧ (decomp 1 [] [0x77#8]).phase = .busy .decompressor ∧
    step (decomp 1 [] [0x77#8]) = .next ((decomp 1 [] [0x77#8]).succeed) ∧
    ((decomp 1 [] [0x77#8]).succeed).phase = .done ∧ ((decomp 1 [] [0x77#8]).succeed).result = .ok 1 :=
  ⟨decomp_inv.2, rfl, rfl, rfl, rfl⟩
theorem witness_DecompressorIgnoresAlpha : (decomp 1 [0x01#8, 0x77#8] []).phase = .busy .decompressor := rfl
theorem witness_TotalUnreadBeforeEnd :
    (decomp 1 [0x01#8, 0x77#8] []).phase = .busy .decompressor ∧
    (decomp 1 [0x01#8, 0x77#8] []).cur < (decomp 1 [0x01#8, 0x77#8] []).inLen := by decide

/-- Each query on 7 bytes and on 8. -/
theorem witness_QueriesAnswer :
    (host (.header ((header 0).take 7))).free ∧ (host (.header ((header 0).take 7))).calls = [.header ((header 0).take 7)] ∧
    ((header 0).take 7).length < 8 ∧ (host (.header (header 5))).free ∧
    header 5 = 0x52#8 :: 0x4C#8 :: 0x45#8 :: 0x2E#8 :: (header 5).drop 4 ∧ 8 ≤ (header 5).length ∧ (header 5).length < 2 ^ 32 ∧
    (host (.declaredLength (header 5))).free ∧ (host (.declaredLength (header 5))).calls = [.declaredLength (header 5)] :=
  ⟨.inl rfl, rfl, by decide, .inl rfl, rfl, by decide, by decide, .inl rfl, rfl⟩
/-- The write with no operation running, and pending while one runs. -/
theorem witness_HostWritesAlpha :
    (host (.setAlpha false)).free ∧ (host (.setAlpha false)).calls = [.setAlpha false] ∧
    ({ comp true [0x7E#8] 1 with calls := [.setAlpha false] } : State).phase = .busy .compressor ∧
    step { comp true [0x7E#8] 1 with calls := [.setAlpha false] } =
      .next ({ comp true [0x7E#8] 1 with calls := [.setAlpha false] } : State).succeed :=
  ⟨.inl rfl, rfl, rfl, rfl⟩
/-- A buffer of 2^32 bytes, the least refused, and an overlapping sink. -/
theorem witness_LaunchRefusals :
    (host (.compress ⟨List.replicate (2 ^ 32) 0#8, false⟩)).free ∧ 2 ^ 32 ≤ (List.replicate (2 ^ 32) (0#8 : Byte)).length ∧
    (host (.decompress ⟨header 0, true⟩)).free ∧ (header 0).length < 2 ^ 32 ∧
    (host (.decompress ⟨header 0, true⟩)).calls = [.decompress ⟨header 0, true⟩] :=
  ⟨.inl rfl, by rw [List.length_replicate], .inl rfl, by decide, rfl⟩
theorem witness_IdleWaits : State.reset.free ∧ State.reset.calls = [] := ⟨.inl rfl, rfl⟩
theorem witness_ResultStaysUntilNextStart :
    (host (.setAlpha false)).free ∧ step (host (.setAlpha false)) = .next { State.reset with cfgAlpha := false } ∧
    ∀ l rest, (host (.setAlpha false)).calls ≠ .compress l :: rest ∧ (host (.setAlpha false)).calls ≠ .decompress l :: rest :=
  ⟨.inl rfl, rfl, fun l rest => ⟨by simp [host], by simp [host]⟩⟩

/-- One ERR_CODE that 60_exceptions.md R235 allows. -/
def errCode : Failure → Int
  | .unknown => -1
  | .lengthError => -2
  | .overflow => -3
  | .invalidHeader => -4
  | .lengthMismatch => -5
  | .malformedToken => -6
  | .truncatedRecord => -7
theorem witness_HostIntegerConvention : ∃ e : Config.ErrCode, Config.hostInt e (.ok 10) = 10 ∧ Config.hostInt e (.fail .unknown) = -1 :=
  ⟨⟨errCode, fun a b => by cases a <;> cases b <;> simp [errCode], fun a => by cases a <;> simp [errCode]⟩, rfl, rfl⟩
theorem witness_LoadedBufferReadsBack : 2 < [0x01#8, 0x00#8, 0x03#8].length := by decide

theorem witness_StepKeepsInv :
    (decomp 1 [0x01#8, 0x77#8] []).Inv ∧
    step (decomp 1 [0x01#8, 0x77#8] []) =
      .next { decomp 1 [0x01#8, 0x77#8] [] with out := [0x77#8], outCnt := 1, cur := 10 } := ⟨decomp_inv.1, rfl⟩
theorem witness_StepKeepsOutBound :
    (comp true [0x7E#8] 0).Inv ∧ (comp true [0x7E#8] 0).OutBound ∧
    step (comp true [0x7E#8] 0) = .next { comp true [0x7E#8] 0 with out := header 1 ++ [0x01#8, 0x7E#8], outCnt := 10, cur := 1 } :=
  ⟨comp_inv, ⟨fun _ => by decide, fun h => (by cases h), by decide⟩, rfl⟩
theorem witness_StepNeverFaults : (comp true [0x7E#8] 0).Inv := comp_inv
theorem witness_BusyStepAnswersNext :
    (comp true [0x7E#8] 0).Inv ∧ (comp true [0x7E#8] 0).phase = .busy .compressor ∧
    (decomp 1 [0x01#8, 0x77#8] []).Inv ∧ (decomp 1 [0x01#8, 0x77#8] []).phase = .busy .decompressor :=
  ⟨comp_inv, rfl, decomp_inv.1, rfl⟩
/-- A different input space that agrees below IN_LEN. -/
theorem witness_BusyStepReadsInside :
    (comp true [0x7E#8] 0).phase = .busy .compressor ∧
    ∀ i, i < (comp true [0x7E#8] 0).inLen → Memory.read [(0, 0x7E#8), (5, 0x01#8)] i = (comp true [0x7E#8] 0).inp.read i := by
  refine ⟨rfl, fun i hi => ?_⟩
  have h : i < 1 := hi
  obtain rfl : i = 0 := by omega
  rfl
/-- A step that goes on, and one that ends. -/
theorem witness_BusyStepFrame :
    (decomp 1 [0x01#8, 0x77#8] []).Inv ∧ (decomp 1 [0x01#8, 0x77#8] []).phase = .busy .decompressor ∧
    step (decomp 1 [0x01#8, 0x77#8] []) =
      .next { decomp 1 [0x01#8, 0x77#8] [] with out := [0x77#8], outCnt := 1, cur := 10 } ∧
    (decomp 1 [] [0x77#8]).Inv ∧ step (decomp 1 [] [0x77#8]) = .next (decomp 1 [] [0x77#8]).succeed :=
  ⟨decomp_inv.1, rfl, rfl, decomp_inv.2, rfl⟩
/-- The decompressor's three failures; the compressor's is Overflow. -/
theorem witness_FailureKindsByAgent :
    step (decomp 1 [0x70#8] []) = .next ((decomp 1 [0x70#8] []).raise .malformedToken) ∧
    step (decomp 1 [0x02#8, 0xAA#8] []) = .next ((decomp 1 [0x02#8, 0xAA#8] []).raise .truncatedRecord) ∧
    step (decomp 2 [] [0x77#8]) = .next ((decomp 2 [] [0x77#8]).raise .lengthMismatch) := ⟨rfl, rfl, rfl⟩
theorem witness_FailureKindsByAgent_compressor :
    step (longInput true [9, 9, 9, 9] (2 ^ 23)) = .next ((longInput true [9, 9, 9, 9] (2 ^ 23)).raise .overflow) := by
  obtain ⟨hp, hc, hr, -⟩ := witness_CompressorEmitsBrep_overflow
  simp only [step, hp, compressStep, if_pos hc, compressRecord, hr]
  rw [if_neg (by decide)]
  rw [emitKind_eq, emitRun_overflow .byteRepeat (2 ^ 25) _ _ (by decide)]; rfl
theorem witness_EveryOperationEnds :
    (comp true [0x7E#8] 0).Inv ∧ (comp true [0x7E#8] 0).phase = .busy .compressor := ⟨comp_inv, rfl⟩
/-- Two instances with different leftovers, and the same answer appended to different ones: V6's `compress`, then `header`. -/
theorem witness_LeftoverStateUnobservable :
    let calls : List HostCall := [.compress ⟨[0x7E#8], false⟩, .header (header 5)]
    let s : State := { State.reset with calls := calls }
    let t : State := { decomp 9 [0x01#8] [0x77#8] with
      phase := .done, result := .fail .truncatedRecord, calls := calls, replies := [.value 7] }
    s.free ∧ t.free ∧ s.cfgAlpha = t.cfgAlpha ∧ s.calls = t.calls ∧
    (∃ s', Sys2Proof.core.run 4 s = .next s' ∧ s'.replies = [.value 0x2E454C52]) ∧
    ∃ t', Sys2Proof.core.run 4 t = .next t' ∧ t'.replies = [.value 7, .value 0x2E454C52] :=
  ⟨.inl rfl, .inr rfl, rfl, rfl, ⟨_, rfl, rfl⟩, ⟨_, rfl, rfl⟩⟩
/-- V6: `compress` of one byte, and an instance that will decompress what it made. -/
theorem witness_RoundTrip :
    (host (.compress ⟨[0x7E#8], false⟩)).free ∧
    RunsTo (host (.compress ⟨[0x7E#8], false⟩))
      { State.reset with
        phase := .done, result := .ok 10, inp := [(0, 0x7E#8)], inLen := 1, cur := 1,
        out := header 1 ++ [0x01#8, 0x7E#8], outCnt := 10, freeIdx := 1 } ∧
    (header 1 ++ [0x01#8, 0x7E#8]).length < 2 ^ 32 ∧ (host (.decompress ⟨header 1 ++ [0x01#8, 0x7E#8], false⟩)).free :=
  ⟨.inl rfl, ⟨3, rfl, rfl, rfl⟩, by decide, .inl rfl⟩

end Sys2Proof.Tests
end

section
/-!
What a step can do, said once for every proof about steps: the host's move (44_host_interface.md), and one step of a running
operation (42_compressor.md R172, 43_decompressor.md R193).
-/

namespace Sys2Proof

/-- The loop of `unpack` (40_token_codec.md R111): each further byte widens the length by 7 bits. -/
theorem unpackRest_ok {kind : Kind} {more len k e : Nat} {b : Byte} {rest : List Byte} {t : Token}
    (h : unpackRest kind more len k b rest = .ok t) (hlen : len < 2 ^ e) :
    t.kind = kind ∧ k ≤ t.size ∧ t.size ≤ k + more ∧ t.length < 2 ^ (e + 7 * (t.size - k)) := by
  induction more generalizing len k e b rest with
  | zero =>
    cases hb : isExtended b with
    | true => rw [unpackRest_full _ _ _ _ _ hb] at h; cases h
    | false => rw [unpackRest_last _ _ _ _ _ _ hb] at h; cases h; simpa using hlen
  | succ more ih =>
    cases hb : isExtended b with
    | false => rw [unpackRest_last _ _ _ _ _ _ hb] at h; cases h; simpa using hlen
    | true =>
      cases rest with
      | nil => rw [unpackRest_end _ _ _ _ _ hb] at h; cases h
      | cons c cs =>
        rw [unpackRest_more _ _ _ _ _ _ _ hb] at h
        have hwide : len * 128 + contGroup c < 2 ^ (e + 7) := by
          have := contGroup_lt c
          rw [Nat.pow_add]; omega
        obtain ⟨hkind, hlo, hhi, hlt⟩ := ih h hwide
        refine ⟨hkind, by omega, by omega, ?_⟩
        rwa [show e + 7 * (t.size - k) = e + 7 + 7 * (t.size - (k + 1)) by omega]

/-- A token `unpack` accepts has 1 to 4 bytes, and its length fits the bits they carry (30_encoding.md R89). -/
theorem unpack_ok {bytes : List Byte} {t : Token} (h : unpack bytes = .ok t) :
    1 ≤ t.size ∧ t.size ≤ 4 ∧ t.length < 2 ^ (t.kind.firstBits + 7 * (t.size - 1)) := by
  cases bytes with
  | nil => cases h
  | cons b rest =>
    cases hr : isReserved b with
    | true => rw [unpack_reserved _ _ hr] at h; cases h
    | false =>
      rw [unpack_first _ _ hr] at h
      obtain ⟨hkind, hlo, hhi, hlt⟩ := unpackRest_ok h (firstByte_of_fields b hr).2
      exact ⟨hlo, hhi, hkind ▸ hlt⟩

/-- The rows the record decoder can name (40_token_codec.md R111): a token's, or one of the two malformed patterns. -/
theorem decodeRecord_ok {bytes : List Byte} {i : Instr} (h : decodeRecord bytes = .ok i) :
    (∃ t, unpack bytes = .ok t ∧ i = Instr.ofToken t) ∨ (∃ b, i = reservedInstr b) ∨
    ∃ b0 b1 b2 b3, i = ext4Instr b0 b1 b2 b3 := by
  unfold decodeRecord at h
  split at h <;> cases h
  · exact .inl ⟨_, ‹_›, rfl⟩
  · exact .inr (.inl ⟨_, rfl⟩)
  · exact .inr (.inr ⟨_, _, _, _, rfl⟩)

/-- The header decoder names `HDR` and no other row (30_encoding.md R97). -/
theorem decodeHeader_ok {bytes : List Byte} {i : Instr} (h : decodeHeader bytes = .ok i) : ∃ w, i = .hdr w := by
  obtain ⟨-, e⟩ | ⟨_, _, _, _, _, _, _, _, _, -, ⟨-, e⟩ | ⟨-, e⟩⟩ := decodeHeader_cases bytes <;> rw [e] at h <;> cases h
  exact ⟨_, rfl⟩

/-- No token takes more than 4 bytes (30_encoding.md R89). -/
theorem ntok_le_four (kind : Kind) (n : Nat) : ntok kind n ≤ 4 := by
  unfold ntok; split_ifs <;> decide

end Sys2Proof

namespace Sys2Proof.Machine

/-! The host's move. -/

/-- With no move to make the block waits. -/
theorem step_no_calls {s : State} (hf : s.free) (hc : s.calls = []) : step s = .next s := by
  rw [step_free s hf, hostStep, hc]

/-- The host's oldest move is made and taken off the list. -/
theorem step_call {s : State} {c : HostCall} {rest : List HostCall} (hf : s.free) (hc : s.calls = c :: rest) :
    step s = hostCall c { s with calls := rest } := by
  rw [step_free s hf, hostStep, hc]

/-- A buffer no entry point takes (10_state.md R22). -/
theorem withBuffer_tooLong {buffer : List Byte} (h : 2 ^ 32 ≤ buffer.length) (act : Outcome) :
    withBuffer buffer act = .refused .launchTooLong := if_neg (Nat.not_lt.mpr h)

/-- A launch whose sink overlaps its input (20_memory.md R67). -/
theorem launchWith_overlap {l : Launch} (h : l.input.length < 2 ^ 32) (ho : l.overlaps = true) (s : State)
    (start : State → Outcome) : launchWith l s start = .refused .launchOverlap := (if_pos h).trans (if_pos ho)

/-- Everything a step of the host that goes on can do: write its own side of the interface, or launch. -/
theorem host_step_next {s t : State} (hf : s.free) (h : step s = .next t) :
    (∃ alpha calls replies, t = { s with cfgAlpha := alpha, calls := calls, replies := replies }) ∨
    (∃ l rest, s.calls = .compress l :: rest ∧ l.input.length < 2 ^ 32 ∧
      compressStart (({ s with calls := rest } : State).setInput l.input) = .next t) ∨
    (∃ l rest, s.calls = .decompress l :: rest ∧ l.input.length < 2 ^ 32 ∧
      decompressStart (({ s with calls := rest } : State).setInput l.input) = .next t) := by
  obtain ⟨-, e⟩ | ⟨_, _, -, e⟩ | ⟨_, _, _, -, -, e⟩ | ⟨_, e⟩ | ⟨l, rest, hc, hl, -, e⟩ | ⟨l, rest, hc, hl, -, e⟩ :=
    host_step_cases s hf <;> rw [e] at h
  · cases h; exact .inl ⟨_, _, _, rfl⟩
  · cases h; exact .inl ⟨_, _, _, rfl⟩
  · cases h; exact .inl ⟨_, _, _, rfl⟩
  · cases h
  · exact .inr (.inl ⟨l, rest, hc, hl, h⟩)
  · exact .inr (.inr ⟨l, rest, hc, hl, h⟩)

/-! A step of a running operation. -/

/-- The most bytes a step appends for each byte it moves CUR on: a token of at most 4 bytes and a payload for a run of at least
one byte (42_compressor.md R171), or the longest record (30_encoding.md R90, R91). -/
def Agent.rate : Agent → Nat
  | .compressor => 5
  | .decompressor => 2 ^ 27

/-- A run that is not empty stands for at least one byte. -/
theorem span_pos (kind : Kind) {n : Nat} (h : 1 ≤ n) : 1 ≤ span kind n := by
  cases kind <;> simp only [span] <;> omega

/-- The longest token and the payload of a run, against the run's bytes. -/
theorem token_paySize_le_rate (kind : Kind) {n : Nat} (h : 1 ≤ n) :
    4 + paySize kind n ≤ Agent.rate .compressor * span kind n := by
  cases kind <;> simp only [paySize, span, Agent.rate] <;> omega

/-- The bytes a record restores, against the bytes it takes. -/
theorem span_le_rate (kind : Kind) {k n : Nat} (hk : 1 ≤ k) (hn : n < 2 ^ (kind.firstBits + 21)) :
    span kind n ≤ Agent.rate .decompressor * (k + paySize kind n) := by
  cases kind <;> simp only [paySize, span, Agent.rate, Kind.firstBits] at * <;> omega

/-- Everything an emit that goes on can do (42_compressor.md R163 to R168): Overflow, or token and payload appended and CUR past
the run. -/
theorem emitRun_next {kind : Kind} {n : Nat} {v : List Byte} {s t : State} (h : emitRun kind n v s = .next t) :
    t = s.raise .overflow ∨
    (s.cur + span kind n ≤ s.inLen ∧
      t = (s.emit (tokenBytes kind (ntok kind n) n ++ v)).setCur (s.cur + span kind n)) := by
  by_cases hn : n < 2 ^ (kind.firstBits + 21)
  · by_cases hs : s.cur + span kind n ≤ s.inLen
    · rw [emitRun_ok kind n v s hn hs] at h
      cases h
      exact .inr ⟨hs, by simp [State.emit, State.setCur, Nat.add_assoc]⟩
    · simp only [emitRun, pack_ok kind n hn, State.within_outside _ _ _ _ (Nat.lt_of_not_le hs)] at h
      cases h
  · rw [emitRun_overflow kind n v s (Nat.le_of_not_lt hn)] at h
    cases h
    exact .inl rfl

/-- Everything a record can do (43_decompressor.md R182, R187): TruncatedRecord, or its bytes appended and CUR past its payload. -/
theorem execRecord_next {kind : Kind} {k n : Nat} {s t : State} (h : execRecord kind k n s = .next t) :
    t = s.raise .truncatedRecord ∨
    (s.cur + (k + paySize kind n) ≤ s.inLen ∧
      t = (s.emit (restore kind s.inByte (s.cur + k) n)).setCur (s.cur + (k + paySize kind n))) := by
  unfold execRecord at h
  rw [Nat.add_assoc] at h
  split_ifs at h with hfit
  · cases h; exact .inl rfl
  · cases h; exact .inr ⟨Nat.le_of_not_lt hfit, rfl⟩

/-- The row of a token runs the record step on the token's fields. -/
theorem exec_ofToken {t : Token} (hlo : 1 ≤ t.size) (hhi : t.size ≤ 4) (s : State) :
    exec (Instr.ofToken t) s = execRecord t.kind t.size t.length s := by
  obtain ⟨kind, n, k⟩ := t
  obtain rfl | rfl | rfl | rfl : k = 1 ∨ k = 2 ∨ k = 3 ∨ k = 4 := by simp only at hlo hhi; omega
  all_goals cases kind <;> rfl

/-- What a decoded record runs: the record step with a length its encoding can hold, or MalformedToken. -/
theorem exec_decoded_record {bytes : List Byte} {i : Instr} (h : decode .record bytes = .ok i) (s : State) :
    (∃ kind k n, exec i s = execRecord kind k n s ∧ 1 ≤ k ∧ n < 2 ^ (kind.firstBits + 21)) ∨
    exec i s = .next (s.raise .malformedToken) := by
  obtain ⟨t, ht, rfl⟩ | ⟨b, rfl⟩ | ⟨b0, b1, b2, b3, rfl⟩ := decodeRecord_ok h
  · obtain ⟨hlo, hhi, hlt⟩ := unpack_ok ht
    exact .inl ⟨t.kind, t.size, t.length, exec_ofToken hlo hhi s, hlo,
      Nat.lt_of_lt_of_le hlt (Nat.pow_le_pow_right (by decide) (by omega))⟩
  · exact .inr rfl
  · exact .inr rfl

/-- The three ways a step of a running operation can go on (42_compressor.md R172, 43_decompressor.md R193): a failure, the
successful end at the end of IN, or `v` appended and CUR moved on inside IN by `n` bytes. -/
def BusyNext (a : Agent) (s t : State) : Prop :=
  (∃ k, t = s.raise k) ∨ (s.cur = s.inLen ∧ t = s.succeed) ∨
  ∃ v n, t = (s.emit v).setCur (s.cur + n) ∧ 1 ≤ n ∧ s.cur + n ≤ s.inLen ∧ v.length ≤ a.rate * n

/-- A compressor's record goes on in one of the three ways (42_compressor.md R162). -/
theorem compressRecord_next {s t : State} (h : compressRecord s = .next t) : BusyNext .compressor s t := by
  unfold compressRecord at h
  split_ifs at h with hz
  · cases h; exact .inl ⟨_, rfl⟩
  · have hpos : 1 ≤ s.nextRun.length := Nat.one_le_iff_ne_zero.mpr hz
    rw [emitKind_eq] at h
    obtain rfl | ⟨hin, rfl⟩ := emitRun_next h
    · exact .inl ⟨_, rfl⟩
    · refine .inr (.inr ⟨_, _, rfl, span_pos _ hpos, hin, ?_⟩)
      have htok := ntok_le_four s.nextRun.kind s.nextRun.length
      have hrate := token_paySize_le_rate s.nextRun.kind hpos
      rw [List.length_append, tokenBytes_length, storePayload_length]
      omega

/-- A decompressor's record goes on in one of the three ways (43_decompressor.md R182). -/
theorem decompressRecord_next {s t : State} (h : fetchExec .record s = .next t) : BusyNext .decompressor s t := by
  unfold fetchExec at h
  split at h
  · obtain ⟨kind, k, n, e, hk, hn⟩ | e := exec_decoded_record ‹_› s <;> rw [e] at h
    · obtain rfl | ⟨hin, rfl⟩ := execRecord_next h
      · exact .inl ⟨_, rfl⟩
      · exact .inr (.inr ⟨_, _, rfl, by omega, hin, (restore_length ..).trans_le (span_le_rate kind hk hn)⟩)
    · cases h; exact .inl ⟨_, rfl⟩
  · cases h; exact .inl ⟨_, rfl⟩

/-- Every step of a running operation that goes on does so in one of the three ways. -/
theorem busy_step_next {s t : State} {a : Agent} (hp : s.phase = .busy a) (h : step s = .next t) : BusyNext a s t := by
  cases a with
  | compressor =>
    simp only [step, hp, compressStep] at h
    split_ifs at h with hlt heq
    · exact compressRecord_next h
    · cases h; exact .inr (.inl ⟨heq, rfl⟩)
  | decompressor =>
    simp only [step, hp, decompressStep, decompressEnd] at h
    split_ifs at h with hlt heq
    · exact decompressRecord_next h
    · cases h; exact .inr (.inl ⟨heq, rfl⟩)
    · cases h; exact .inl ⟨_, rfl⟩

end Sys2Proof.Machine
end

section
/-!
The invariant and the bounds on OUT_CNT (10_state.md R22 to R24): what each operation on the state does to them, then every step.
-/

namespace Sys2Proof.Machine

variable {s t : State}

/-- The host's side of the interface is no part of the invariant. -/
theorem State.Inv.withHostSide (h : s.Inv) (alpha : Bool) (calls : List HostCall) (replies : List Reply) :
    ({ s with cfgAlpha := alpha, calls := calls, replies := replies } : State).Inv :=
  ⟨h.memory, h.bound, h.count, h.cursor, h.records, h.result⟩

/-- A failure keeps the invariant (60_exceptions.md R230). -/
theorem State.Inv.raise (h : s.Inv) (k : Failure) : (s.raise k).Inv :=
  ⟨h.memory, h.bound, h.count, nofun, nofun, nofun⟩

/-- A successful end keeps the invariant (42_compressor.md R169, 43_decompressor.md R189). -/
theorem State.Inv.succeed (h : s.Inv) : s.succeed.Inv :=
  ⟨h.memory, h.bound, h.count, nofun, nofun, fun _ _ hr => (Result.ok.inj hr).symm⟩

/-- Appending and moving CUR on inside IN keeps the invariant. -/
theorem State.Inv.advance {a : Agent} (h : s.Inv) (hp : s.phase = .busy a) (v : List Byte) {n : Nat}
    (hin : s.cur + n ≤ s.inLen) : ((s.emit v).setCur (s.cur + n)).Inv where
  memory := h.memory
  bound := h.bound
  count := by simp [h.count]
  cursor _ _ := hin
  records hd := Nat.le_add_right_of_le (h.records hd)
  result hd := nomatch hp.symm.trans hd

/-- The host's side of the interface is no part of the bounds. -/
theorem State.OutBound.withHostSide (h : s.OutBound) (alpha : Bool) (calls : List HostCall) (replies : List Reply) :
    ({ s with cfgAlpha := alpha, calls := calls, replies := replies } : State).OutBound :=
  ⟨h.compressor, h.decompressor, h.always⟩

/-- A failure keeps the bounds: the sink keeps its bytes (60_exceptions.md R231). -/
theorem State.OutBound.raise (h : s.OutBound) (k : Failure) : (s.raise k).OutBound :=
  ⟨nofun, nofun, h.always⟩

/-- A successful end keeps the bounds. -/
theorem State.OutBound.succeed (h : s.OutBound) : s.succeed.OutBound :=
  ⟨nofun, nofun, h.always⟩

/-- Appending within the agent's rate keeps the bounds, the one on every state because CUR stays inside IN. -/
theorem State.OutBound.advance {a : Agent} (h : s.OutBound) (hi : s.Inv) (hp : s.phase = .busy a) {v : List Byte} {n : Nat}
    (hin : s.cur + n ≤ s.inLen) (hv : v.length ≤ a.rate * n) : ((s.emit v).setCur (s.cur + n)).OutBound := by
  have hlen := hi.bound
  cases a with
  | compressor =>
    obtain ⟨hlo, hhi⟩ := h.compressor hp
    simp only [Agent.rate] at hv
    constructor
    case decompressor => exact fun hd => nomatch hp.symm.trans hd
    all_goals simp only [State.setCur_outCnt, State.emit_outCnt, State.setCur_cur]; omega
  | decompressor =>
    have hhi := h.decompressor hp
    have hrec := hi.records hp
    simp only [Agent.rate] at hv
    constructor
    case compressor => exact fun hc => nomatch hp.symm.trans hc
    all_goals simp only [State.setCur_outCnt, State.emit_outCnt, State.setCur_cur]; omega

/-- The compressor's start step establishes the invariant and the bounds, whatever was held before (42_compressor.md R161). -/
theorem compressStart_establishes {buf : List Byte} (hl : buf.length < 2 ^ 32)
    (h : compressStart (s.setInput buf) = .next t) : t.Inv ∧ t.OutBound := by
  rw [compressStart_eq] at h
  cases h
  exact ⟨⟨s.setInput_wf buf, hl, rfl, fun _ _ => Nat.zero_le _, nofun, nofun⟩,
    ⟨fun _ => ⟨Nat.le_refl 8, Nat.le_refl 8⟩, nofun, (by decide : 8 < 2 ^ 59)⟩⟩

/-- The decompressor's start step establishes the invariant and the bounds, whatever was held before (43_decompressor.md R181). -/
theorem decompressStart_establishes {buf : List Byte} (hl : buf.length < 2 ^ 32)
    (h : decompressStart (s.setInput buf) = .next t) : t.Inv ∧ t.OutBound := by
  obtain ⟨k, e⟩ | ⟨h8, w, e⟩ := decompressStart_cases s buf <;> rw [e] at h <;> cases h
  · exact ⟨⟨s.setInput_wf buf, hl, rfl, nofun, nofun, nofun⟩, ⟨nofun, nofun, Nat.two_pow_pos 59⟩⟩
  · exact ⟨⟨s.setInput_wf buf, hl, rfl, fun _ _ => h8, fun _ => Nat.le_refl 8, nofun⟩,
      ⟨nofun, fun _ => Nat.zero_le _, Nat.two_pow_pos 59⟩⟩

/-- Settles O51, by what the host's move and a step of a running operation can do. -/
theorem stepKeepsInv : Obligations.StepKeepsInv := by
  intro s t hi h
  obtain hf | ⟨a, hp⟩ := phase_cases s
  · obtain ⟨alpha, calls, replies, rfl⟩ | ⟨l, rest, -, hl, e⟩ | ⟨l, rest, -, hl, e⟩ := host_step_next hf h
    · exact hi.withHostSide alpha calls replies
    · exact (compressStart_establishes hl e).1
    · exact (decompressStart_establishes hl e).1
  · obtain ⟨k, rfl⟩ | ⟨-, rfl⟩ | ⟨v, n, rfl, -, hin, -⟩ := busy_step_next hp h
    · exact hi.raise k
    · exact hi.succeed
    · exact hi.advance hp v hin

/-- Settles O52, by the same cases: a step of a running operation appends within its agent's rate. -/
theorem stepKeepsOutBound : Obligations.StepKeepsOutBound := by
  intro s t hi ho h
  obtain hf | ⟨a, hp⟩ := phase_cases s
  · obtain ⟨alpha, calls, replies, rfl⟩ | ⟨l, rest, -, hl, e⟩ | ⟨l, rest, -, hl, e⟩ := host_step_next hf h
    · exact ho.withHostSide alpha calls replies
    · exact (compressStart_establishes hl e).2
    · exact (decompressStart_establishes hl e).2
  · obtain ⟨k, rfl⟩ | ⟨-, rfl⟩ | ⟨v, n, rfl, -, hin, hv⟩ := busy_step_next hp h
    · exact ho.raise k
    · exact ho.succeed
    · exact ho.advance hi hp hin hv

/-- Settles O50: nothing runs, nothing is loaded and the sink is empty. -/
theorem resetKeepsInv : Obligations.ResetKeepsInv :=
  ⟨⟨Memory.wf_reset, by decide, rfl, nofun, nofun, nofun⟩, ⟨nofun, nofun, Nat.two_pow_pos 59⟩⟩

end Sys2Proof.Machine
end

section
/-!
The host's side: the write of CFG.alpha, refused launches, waiting, the result between launches, and the loaded buffer.
-/

namespace Sys2Proof.Machine

/-- A step of a running operation leaves CFG.alpha and the host's moves (10_state.md R21, 70_reset_and_hazards.md R253). -/
theorem busy_step_hostSide {s t : State} {a : Agent} (hp : s.phase = .busy a) (h : step s = .next t) :
    t.cfgAlpha = s.cfgAlpha ∧ t.calls = s.calls := by
  obtain ⟨k, rfl⟩ | ⟨-, rfl⟩ | ⟨v, n, rfl, -⟩ := busy_step_next hp h <;> exact ⟨rfl, rfl⟩

/-- Settles O43, by the host's move while nothing runs and by the frame of a running operation's step. -/
theorem hostWritesAlpha : Obligations.HostWritesAlpha :=
  fun _ _ _ hc => ⟨fun hf => step_call hf hc, fun _ _ => busy_step_hostSide⟩

/-- Settles O46: what is left of the host's moves writes only the host's side. -/
theorem resultStaysUntilNextStart : Obligations.ResultStaysUntilNextStart := by
  intro s t hf h hno
  obtain ⟨alpha, calls, replies, rfl⟩ | ⟨l, rest, hc, -⟩ | ⟨l, rest, hc, -⟩ := host_step_next hf h
  · exact ⟨rfl, rfl, rfl, rfl, rfl, rfl, rfl, rfl⟩
  · exact absurd hc (hno l rest).1
  · exact absurd hc (hno l rest).2

/-- Settles O48: a loaded buffer read from index 0 on. -/
theorem loadedBufferReadsBack : Obligations.LoadedBufferReadsBack := by
  intro buf a ha
  have hread := (Memory.read_load buf 0 a).1
  rw [Nat.zero_add] at hread
  rw [hread, List.getD_eq_getElem _ _ ha, List.getElem?_eq_getElem ha]

/-- Settles O44: the length bound comes first at every entry point, then a launch's overlap. -/
theorem launchRefusals : Obligations.LaunchRefusals := by
  intro s l rest hf
  simp only [List.mem_cons, List.not_mem_nil, or_false]
  refine ⟨fun hl hc => ?_, fun hl ho hc => ?_⟩
  · obtain hc | hc | hc | hc := hc <;> rw [step_call hf hc] <;> exact withBuffer_tooLong hl _
  · obtain hc | hc := hc <;> rw [step_call hf hc] <;> exact launchWith_overlap hl ho _ _

/-- Settles O45. -/
theorem idleWaits : Obligations.IdleWaits := fun _ => step_no_calls

end Sys2Proof.Machine
end

section
/-!
Two runs side by side (10_state.md R31, 70_reset_and_hazards.md R251): states that agree in all a rule reads step alike, and a
launch makes states that agree whatever was held before it.
-/

namespace Sys2Proof.Machine

/-- Two outcomes alike: both go on, to states in `R`, or both stop for the same reason. -/
inductive Related (R : State → State → Prop) : Outcome → Outcome → Prop where
  | next {s t : State} (h : R s t) : Related R (.next s) (.next t)
  | fault (r : Fault) : Related R (.fault r) (.fault r)
  | refused (r : Refusal) : Related R (.refused r) (.refused r)

/-- Related outcomes agree where related states do. -/
theorem Related.outcomesAgree {R : State → State → Prop} (hR : ∀ s t, R s t → Agree s t) {o p : Outcome}
    (h : Related R o p) : OutcomesAgree o p := by
  cases h with
  | next h => exact hR _ _ h
  | fault => rfl
  | refused => rfl

/-- The bound on buffers is the same for both. -/
theorem Related.withBuffer {R : State → State → Prop} {o p : Outcome} (h : Related R o p) (buffer : List Byte) :
    Related R (withBuffer buffer o) (withBuffer buffer p) := by
  unfold Machine.withBuffer; split_ifs
  · exact h
  · exact .refused _

/-- A launch is refused alike, or both start steps are taken. -/
theorem Related.launchWith {R : State → State → Prop} {l : Launch} {s t : State} {start : State → Outcome}
    (h : Related R (start (s.setInput l.input)) (start (t.setInput l.input))) :
    Related R (launchWith l s start) (launchWith l t start) := by
  refine Related.withBuffer ?_ _
  split_ifs
  · exact .refused _
  · exact h

/-- A run stops where its first step does. -/
theorem run_succ_stop {s : State} {o : Outcome} (k : Nat) (hs : step s = o) (ho : ∀ t, o ≠ .next t) :
    Sys2Proof.core.run (k + 1) s = o :=
  (core_run_stop Sys2Proof.core k s fun t ht => ho t (hs.symm.trans ht)).trans hs

/-- Runs are related from related first steps, if they are from related states. -/
theorem run_succ_related {R : State → State → Prop} {k : Nat}
    (hrun : ∀ s t, R s t → Related R (Sys2Proof.core.run k s) (Sys2Proof.core.run k t)) {s t : State}
    (h : Related R (step s) (step t)) : Related R (Sys2Proof.core.run (k + 1) s) (Sys2Proof.core.run (k + 1) t) := by
  generalize hs : step s = o at h
  generalize ht : step t = p at h
  cases h with
  | next h => rw [run_succ_next k hs, run_succ_next k ht]; exact hrun _ _ h
  | fault r => rw [run_succ_stop k hs (by simp), run_succ_stop k ht (by simp)]; exact .fault r
  | refused r => rw [run_succ_stop k hs (by simp), run_succ_stop k ht (by simp)]; exact .refused r

/-- A relation every step keeps is kept by every run. -/
theorem run_related {R : State → State → Prop} (hstep : ∀ s t, R s t → Related R (step s) (step t)) (k : Nat) :
    ∀ s t, R s t → Related R (Sys2Proof.core.run k s) (Sys2Proof.core.run k t) := by
  induction k with
  | zero => exact fun _ _ h => .next h
  | succ k ih => exact fun s t h => run_succ_related ih (hstep s t h)

/-- Since they had answered `r` and `r'`, the two have appended the same answers. -/
def SameAnswers (r r' : List Reply) (s t : State) : Prop :=
  ∃ answers, s.replies = r ++ answers ∧ t.replies = r' ++ answers

/-- One more answer on both. -/
theorem SameAnswers.answer {r r' : List Reply} {s t : State} (h : SameAnswers r r' s t) (a : Reply) :
    SameAnswers r r' (s.answer a) (t.answer a) := by
  obtain ⟨answers, hs, ht⟩ := h
  exact ⟨answers ++ [a], by simp [hs], by simp [ht]⟩

/-- What the simulation keeps: agreement, and the same answers since the two had answered `r` and `r'`. -/
structure Alike (r r' : List Reply) (s t : State) : Prop extends Agree s t where
  answers : SameAnswers r r' s t

variable {r r' : List Reply} {s t : State}

/-! Each operation on the state keeps the two alike. -/

theorem Alike.raise (h : Alike r r' s t) (k : Failure) : Alike r r' (s.raise k) (t.raise k) :=
  { h with phase := rfl, cur := nofun, totalLen := nofun, result := fun _ => rfl }

theorem Alike.succeed (h : Alike r r' s t) : Alike r r' s.succeed t.succeed :=
  { h with phase := rfl, cur := nofun, totalLen := nofun,
           result := fun _ => congrArg Result.ok h.outCnt }

theorem Alike.emit (h : Alike r r' s t) (v : List Byte) : Alike r r' (s.emit v) (t.emit v) :=
  { h with out := congrArg (· ++ v) h.out, outCnt := congrArg (· + v.length) h.outCnt }

theorem Alike.setCur (h : Alike r r' s t) (c : Nat) : Alike r r' (s.setCur c) (t.setCur c) :=
  { h with cur := fun _ _ => rfl }

theorem Alike.setHeader (h : Alike r r' s t) (w : Word32) (c : Nat) :
    Alike r r' { s with totalLen := w, cur := c } { t with totalLen := w, cur := c } :=
  { h with cur := fun _ _ => rfl, totalLen := fun _ => rfl }

theorem Alike.answer (h : Alike r r' s t) (a : Reply) : Alike r r' (s.answer a) (t.answer a) :=
  { h with answers := h.answers.answer a }

theorem Alike.setAlpha (h : Alike r r' s t) (alpha : Bool) :
    Alike r r' { s with cfgAlpha := alpha } { t with cfgAlpha := alpha } :=
  { h with cfgAlpha := rfl }

theorem Alike.setCalls (h : Alike r r' s t) (calls : List HostCall) :
    Alike r r' { s with calls := calls } { t with calls := calls } :=
  { h with calls := rfl }

/-- The two read IN alike. -/
theorem Alike.inByte (h : Alike r r' s t) : s.inByte = t.inByte := State.inByte_congr s t h.inp

/-! A step of a running operation (10_state.md R29): all it reads is in the agreement. -/

/-- An emit, given the same run and payload. -/
theorem Alike.emitRun {a : Agent} (h : Alike r r' s t) (hp : s.phase = .busy a) (kind : Kind) (n : Nat) (v : List Byte) :
    Related (Alike r r') (emitRun kind n v s) (emitRun kind n v t) := by
  unfold Machine.emitRun
  cases pack kind n with
  | error k => exact .next (h.raise k)
  | ok token =>
    simp only [State.within, ← h.cur a hp, ← h.inLen]
    split_ifs
    · exact .next (((h.emit token).emit v).setCur _)
    · exact .fault _

/-- The compressor's record (42_compressor.md R162): the same run is found and stored. -/
theorem Alike.compressRecord {a : Agent} (h : Alike r r' s t) (hp : s.phase = .busy a) :
    Related (Alike r r') (compressRecord s) (compressRecord t) := by
  have hrun : s.nextRun = t.nextRun := by
    simp only [State.nextRun, h.inByte, h.inLen, h.cur a hp, h.cfgAlpha]
  simp only [Machine.compressRecord, emitKind_eq, ← hrun, ← h.inByte, ← h.cur a hp]
  split_ifs
  · exact .next (h.raise _)
  · exact h.emitRun hp _ _ _

/-- A record of the decompressor (43_decompressor.md R182). -/
theorem Alike.execRecord {a : Agent} (h : Alike r r' s t) (hp : s.phase = .busy a) (kind : Kind) (k n : Nat) :
    Related (Alike r r') (execRecord kind k n s) (execRecord kind k n t) := by
  simp only [Machine.execRecord, ← h.cur a hp, ← h.inLen, ← h.inByte]
  split_ifs
  · exact .next (h.raise _)
  · exact .next ((h.emit _).setCur _)

/-- Every row of the table. -/
theorem Alike.exec {a : Agent} (h : Alike r r' s t) (hp : s.phase = .busy a) (i : Instr) :
    Related (Alike r r') (exec i s) (exec i t) := by
  cases i with
  | reservedWA | malformedExt4 => exact .next (h.raise _)
  | hdr w => exact .next (h.setHeader w _)
  | _ n => exact h.execRecord hp _ _ n

/-- The decompressor's fetch of a record: the same bytes decode to the same row. -/
theorem Alike.fetchExec {a : Agent} (h : Alike r r' s t) (hp : s.phase = .busy a) :
    Related (Alike r r') (fetchExec .record s) (fetchExec .record t) := by
  have hfetch : s.fetch .record = t.fetch .record := by
    simp only [State.fetch, State.window, h.inByte, h.inLen, h.cur a hp]
  unfold Machine.fetchExec
  rw [← hfetch]
  cases decode .record (s.fetch .record) with
  | ok i => exact h.exec hp i
  | error e => exact .next (h.raise _)

/-- A step of a running operation. -/
theorem Alike.busyStep {a : Agent} (h : Alike r r' s t) (hp : s.phase = .busy a) :
    Related (Alike r r') (step s) (step t) := by
  cases a with
  | compressor =>
    simp only [step, ← h.phase, hp, compressStep, ← h.cur _ hp, ← h.inLen]
    split_ifs
    · exact h.compressRecord hp
    · exact .next h.succeed
    · exact .fault _
  | decompressor =>
    simp only [step, ← h.phase, hp, decompressStep, decompressEnd, ← h.cur _ hp, ← h.inLen, ← h.outCnt, ← h.totalLen hp]
    split_ifs
    · exact h.fetchExec hp
    · exact .next h.succeed
    · exact .next (h.raise _)
    · exact .fault _

/-! A launch: CFG.alpha, the host's moves and the buffer are all it reads. -/

/-- The compressor's start step (42_compressor.md R161). -/
theorem compressStart_alike (hr : SameAnswers r r' s t) (ha : s.cfgAlpha = t.cfgAlpha) (hc : s.calls = t.calls)
    (buf : List Byte) : Related (Alike r r') (compressStart (s.setInput buf)) (compressStart (t.setInput buf)) := by
  rw [compressStart_eq, compressStart_eq]
  exact .next ⟨⟨rfl, ha, rfl, rfl, rfl, rfl, hc, fun _ _ => rfl, nofun, nofun⟩, hr⟩

/-- The decompressor's start step (43_decompressor.md R181). -/
theorem decompressStart_alike (hr : SameAnswers r r' s t) (ha : s.cfgAlpha = t.cfgAlpha) (hc : s.calls = t.calls)
    (buf : List Byte) : Related (Alike r r') (decompressStart (s.setInput buf)) (decompressStart (t.setInput buf)) := by
  rw [decompressStart_eq, decompressStart_eq]
  cases hd : decodeHeader (buf.take 8) with
  | error e =>
    exact .next ⟨⟨rfl, ha, rfl, rfl, rfl, rfl, hc, nofun, nofun, fun _ => rfl⟩, hr⟩
  | ok i =>
    obtain ⟨w, rfl⟩ := decodeHeader_ok hd
    exact .next ⟨⟨rfl, ha, rfl, rfl, rfl, rfl, hc, fun _ _ => rfl, fun _ => rfl, nofun⟩, hr⟩

/-- Every move of the host, made on states that are alike. -/
theorem Alike.hostCall (h : Alike r r' s t) (c : HostCall) : Related (Alike r r') (hostCall c s) (hostCall c t) := by
  cases c with
  | setAlpha alpha => exact .next (h.setAlpha alpha)
  | header buf => exact Related.withBuffer (.next (h.answer _)) buf
  | declaredLength buf => exact Related.withBuffer (.next (h.answer _)) buf
  | compress l => exact .launchWith (compressStart_alike h.answers h.cfgAlpha h.calls l.input)
  | decompress l => exact .launchWith (decompressStart_alike h.answers h.cfgAlpha h.calls l.input)

/-- Every step keeps the two alike. -/
theorem Alike.step (h : Alike r r' s t) : Related (Alike r r') (step s) (step t) := by
  obtain hf | ⟨a, hp⟩ := phase_cases s
  · have hf' : t.free := by unfold State.free; rw [← h.phase]; exact hf
    cases hc : s.calls with
    | nil => rw [step_no_calls hf hc, step_no_calls hf' (h.calls ▸ hc)]; exact .next h
    | cons c rest => rw [step_call hf hc, step_call hf' (h.calls ▸ hc)]; exact (h.setCalls rest).hostCall c
  · exact h.busyStep hp

/-- The first step of a launch, from any states with the same CFG.alpha and the same moves, makes the two alike. -/
theorem launch_step_alike {l : Launch} {rest : List HostCall} (hf : s.free) (hf' : t.free) (ha : s.cfgAlpha = t.cfgAlpha)
    (hct : s.calls = t.calls) (hc : s.calls = .compress l :: rest ∨ s.calls = .decompress l :: rest) :
    Related (Alike s.replies t.replies) (Machine.step s) (Machine.step t) := by
  have hr : SameAnswers s.replies t.replies { s with calls := rest } { t with calls := rest } :=
    ⟨[], (List.append_nil _).symm, (List.append_nil _).symm⟩
  obtain hc | hc := hc <;> rw [step_call hf hc, step_call hf' (hct ▸ hc)]
  · exact .launchWith (compressStart_alike hr ha rfl l.input)
  · exact .launchWith (decompressStart_alike hr ha rfl l.input)

/-- Settles O59: the launch makes the two alike, and every step keeps them so. -/
theorem leftoverStateUnobservable : Obligations.LeftoverStateUnobservable := by
  intro s t l rest k hf hf' ha hct hc
  have hrun : Related (Alike s.replies t.replies) (Sys2Proof.core.run (k + 1) s) (Sys2Proof.core.run (k + 1) t) :=
    run_succ_related (run_related (fun _ _ => Alike.step) k) (launch_step_alike hf hf' ha hct hc)
  refine ⟨hrun.outcomesAgree fun _ _ h => h.toAgree, fun s' t' hs ht => ?_⟩
  rw [hs, ht] at hrun
  cases hrun with
  | next h => exact h.answers

end Sys2Proof.Machine
end

section
/-!
The classifier looks at no byte before the cursor and at none beyond the buffer (41_run_classifier.md R139): readers that agree from
`cur` up to `len` pass each of its tests alike, and so get the same run.
-/

namespace Sys2Proof.Machine

section
variable {rd rd' : Nat → Byte} {len cur : Nat} (h : ∀ i, cur ≤ i → i < len → rd i = rd' i)
include h

/-- Two words between the cursor and the buffer's end (R131). -/
theorem sameWord_congr {a b : Nat} (ha : cur ≤ a) (ha' : a + 4 ≤ len) (hb : cur ≤ b) (hb' : b + 4 ≤ len) :
    sameWord rd a b = sameWord rd' a b := by
  have hword : ∀ c j, cur ≤ c → c + 4 ≤ len → j < 4 → rd (c + j) = rd' (c + j) := fun c j _ _ _ => h _ (by omega) (by omega)
  rw [Bool.eq_iff_iff, sameWord_iff, sameWord_iff]
  exact forall₂_congr fun j hj => by rw [hword a j ha ha' hj, hword b j hb hb' hj]

/-- A word at the cursor (R131). -/
theorem broadcast_congr (hin : cur + 4 ≤ len) : broadcast rd cur = broadcast rd' cur := by
  rw [Bool.eq_iff_iff, broadcast_iff, broadcast_iff]
  exact forall₂_congr fun j hj => by rw [h (cur + j) (by omega) (by omega), h cur (by omega) (by omega)]

/-- Step 1's loop compares only words inside the buffer (R132). -/
theorem moreWords_congr (n : Nat) : moreWords rd len cur n = moreWords rd' len cur n := by
  by_cases hin : cur + 4 * n + 4 ≤ len
  · simp only [moreWords, sameWord_congr h (by omega : cur ≤ cur + 4 * n) hin le_rfl (by omega)]
  · simp [moreWords, hin]

/-- Step 2's loop compares only bytes inside the buffer (R133). -/
theorem moreBytes_congr (n : Nat) : moreBytes rd len cur n = moreBytes rd' len cur n := by
  by_cases hin : cur + n < len
  · simp only [moreBytes, h (cur + n) (by omega) hin, h cur le_rfl (by omega)]
  · simp [moreBytes, hin]

/-- Step 3's loop reads a second pixel only where it is inside the buffer (R134). -/
theorem morePixels_congr (m : Nat) : morePixels rd len cur m = morePixels rd' len cur m := by
  have hpair : (decide (cur + 4 * m + 8 ≤ len) && sameWord rd (cur + 4 * m) (cur + 4 * m + 4)) =
      (decide (cur + 4 * m + 8 ≤ len) && sameWord rd' (cur + 4 * m) (cur + 4 * m + 4)) := by
    by_cases hin : cur + 4 * m + 8 ≤ len
    · rw [sameWord_congr h (by omega) (by omega) (by omega) (by omega)]
    · simp [hin]
  by_cases hin : cur + 4 * m + 4 ≤ len
  · simp only [morePixels, hpair, h (cur + 4 * m) (by omega) (by omega), h cur le_rfl (by omega)]
  · simp [morePixels, hin]

/-- Trigger (a) looks back two bytes (R135). -/
theorem triggerByte_congr {i : Nat} (hlo : cur + 2 ≤ i) (hhi : i < len) : triggerByte rd i = triggerByte rd' i := by
  simp only [triggerByte, h i (by omega) hhi, h (i - 1) (by omega) (by omega), h (i - 2) (by omega) (by omega)]

/-- Trigger (b) looks back seven bytes, from the seventh byte after the cursor on (R135). -/
theorem triggerWord_congr {i : Nat} (hhi : i < len) : triggerWord rd cur i = triggerWord rd' cur i := by
  by_cases hlo : cur + 7 ≤ i
  · simp only [triggerWord, sameWord_congr h (by omega : cur ≤ i - 3) (by omega) (by omega : cur ≤ i - 7) (by omega)]
  · simp [triggerWord, hlo]

/-- Trigger (c) looks back eleven bytes, from the fifteenth byte after the cursor on (R135). -/
theorem triggerAlpha_congr {i : Nat} (alpha : Bool) (hhi : i < len) :
    triggerAlpha rd cur alpha i = triggerAlpha rd' cur alpha i := by
  by_cases hlo : cur + 15 ≤ i
  · simp only [triggerAlpha, h (i - 3) (by omega) (by omega), h (i - 7) (by omega) (by omega), h (i - 11) (by omega) (by omega)]
  · simp [triggerAlpha, hlo]

/-- The literal scan, at any index it reaches (R135). -/
theorem scanLiteral_congr (alpha : Bool) {count i : Nat} (hlo : cur + 2 ≤ i) (hhi : count ≤ len - i) :
    scanLiteral rd cur alpha count i = scanLiteral rd' cur alpha count i := by
  induction count generalizing i with
  | zero => rfl
  | succ count ih =>
    have hi : i < len := by omega
    simp only [scanLiteral, triggerByte_congr h hlo hi, triggerWord_congr h hi, triggerAlpha_congr h alpha hi,
      ih (i := i + 1) (by omega) (by omega)]

/-- Step 1 (R132). -/
theorem classifyWord_congr : classifyWord rd len cur = classifyWord rd' len cur := by
  by_cases hin : cur + 4 ≤ len
  · simp only [classifyWord, funext (moreWords_congr h), broadcast_congr h hin]
  · simp [classifyWord, hin]

/-- Step 2 (R133). -/
theorem classifyByte_congr : classifyByte rd len cur = classifyByte rd' len cur := by
  simp only [classifyByte, funext (moreBytes_congr h)]

/-- Step 3 (R134). -/
theorem classifyAlpha_congr (alpha : Bool) : classifyAlpha rd len cur alpha = classifyAlpha rd' len cur alpha := by
  simp only [classifyAlpha, funext (morePixels_congr h)]

/-- Step 4 (R135, R136). -/
theorem classifyLiteral_congr (alpha : Bool) : classifyLiteral rd len cur alpha = classifyLiteral rd' len cur alpha := by
  simp only [classifyLiteral, scanLiteral_congr h alpha (by omega : cur + 2 ≤ cur + 3) le_rfl]

/-- The run at the cursor is a function of the bytes from the cursor to the buffer's end (R139). -/
theorem classify_congr (alpha : Bool) : classify rd len cur alpha = classify rd' len cur alpha := by
  simp only [classify, classifyWord_congr h, classifyByte_congr h, classifyAlpha_congr h, classifyLiteral_congr h]

end

end Sys2Proof.Machine
end

section
/-!
What a running operation reads of the input space (20_memory.md R57): each operation is carried over to an input space that reads the
same below IN_LEN. Then the frame of every step (R58, R59).
-/

namespace Sys2Proof.Machine

/-- The stored pixels of R186 are read from their own `3 * n` bytes. -/
theorem pixels_congr {rd rd' : Nat → Byte} (a : Byte) {p n : Nat} (h : ∀ i, p ≤ i → i < p + 3 * n → rd i = rd' i) :
    pixels rd a p n = pixels rd' a p n := by
  induction n generalizing p with
  | zero => rfl
  | succ n ih =>
    simp only [pixels, h p (by omega) (by omega), h (p + 1) (by omega) (by omega), h (p + 2) (by omega) (by omega)]
    rw [ih fun i _ _ => h i (by omega) (by omega)]

/-- The triples of R166 are read from their own `4 * n` bytes. -/
theorem triples_congr {rd rd' : Nat → Byte} {c n : Nat} (h : ∀ i, c ≤ i → i < c + 4 * n → rd i = rd' i) :
    triples rd c n = triples rd' c n := by
  induction n generalizing c with
  | zero => rfl
  | succ n ih =>
    simp only [triples, h (c + 1) (by omega) (by omega), h (c + 2) (by omega) (by omega), h (c + 3) (by omega) (by omega)]
    rw [ih fun i _ _ => h i (by omega) (by omega)]

/-- A record restores from its payload alone (43_decompressor.md R183 to R186). -/
theorem restore_congr {rd rd' : Nat → Byte} (kind : Kind) {q n : Nat}
    (h : ∀ i, q ≤ i → i < q + paySize kind n → rd i = rd' i) : restore kind rd q n = restore kind rd' q n := by
  cases kind with simp only [paySize] at h
  | literal => exact readBytes_congr rd rd' q n h
  | byteRepeat => simp only [restore, restoreBrep, h q le_rfl (by omega)]
  | wordRepeat => simp only [restore, restoreWrep, readBytes_congr rd rd' q 4 h]
  | alphaRepeat =>
    simp only [restore, restoreArep, h q le_rfl (by omega)]
    exact pixels_congr _ fun i _ _ => h i (by omega) (by omega)

/-- A run that is not empty is stored from its own bytes alone (42_compressor.md R163 to R166). -/
theorem storePayload_congr {rd rd' : Nat → Byte} (kind : Kind) {c n : Nat} (hn : 1 ≤ n)
    (h : ∀ i, c ≤ i → i < c + span kind n → rd i = rd' i) : storePayload kind rd c n = storePayload kind rd' c n := by
  cases kind with simp only [span] at h
  | literal => exact readBytes_congr rd rd' c n h
  | byteRepeat => simp only [storePayload, storeBrep, h c le_rfl (by omega)]
  | wordRepeat => exact readBytes_congr rd rd' c 4 fun i _ _ => h i (by omega) (by omega)
  | alphaRepeat => simp only [storePayload, storeArep, h c le_rfl (by omega), triples_congr h]

/-- An emit uses its payload only where the run lies inside IN. -/
theorem emitRun_congr {kind : Kind} {n : Nat} {v w : List Byte} {s : State} (h : s.cur + span kind n ≤ s.inLen → v = w) :
    emitRun kind n v s = emitRun kind n w s := by
  by_cases hin : s.cur + span kind n ≤ s.inLen
  · rw [h hin]
  · simp only [emitRun, State.within_outside _ _ _ _ (Nat.lt_of_not_le hin)]

/-- `s` with another input space of the same length. -/
def State.withMemory (m : Memory) (s : State) : State := { s with inp := m }

@[simp] theorem State.withMemory_cur (m : Memory) (s : State) : (s.withMemory m).cur = s.cur := rfl
@[simp] theorem State.withMemory_inLen (m : Memory) (s : State) : (s.withMemory m).inLen = s.inLen := rfl

/-- A change of the next state, of a choice of outcomes. -/
theorem mapNext_ite (f : State → State) (c : Prop) [Decidable c] (o p : Outcome) :
    mapNext f (if c then o else p) = if c then mapNext f o else mapNext f p := apply_ite _ _ _ _

/-- A change of the next state, under the guard of a read inside IN. -/
theorem mapNext_within (f : State → State) (s : State) (a n : Nat) (act : Outcome) :
    mapNext f (s.within a n act) = s.within a n (mapNext f act) := mapNext_ite ..

/-- An emit of a given payload reads nothing of IN. -/
theorem emitRun_withMemory (m : Memory) (kind : Kind) (n : Nat) (v : List Byte) (s : State) :
    emitRun kind n v (s.withMemory m) = mapNext (State.withMemory m) (emitRun kind n v s) := by
  unfold emitRun
  cases pack kind n with
  | error k => rfl
  | ok token =>
    dsimp only
    rw [mapNext_within]; rfl

/-- The decompressor's end step reads nothing of IN (43_decompressor.md R188). -/
theorem decompressEnd_withMemory (m : Memory) (s : State) :
    decompressEnd (s.withMemory m) = mapNext (State.withMemory m) (decompressEnd s) := by
  rw [decompressEnd, decompressEnd, mapNext_ite]; rfl

section
variable {m : Memory} {s : State} (h : ∀ i, i < s.inLen → m.read i = s.inp.read i)
include h

/-- The bytes below IN_LEN are the same. -/
theorem inByte_withMemory {i : Nat} (hi : i < s.inLen) : (s.withMemory m).inByte i = s.inByte i := h i hi

/-- The run at CUR is the same (41_run_classifier.md R139). -/
theorem nextRun_withMemory : (s.withMemory m).nextRun = s.nextRun :=
  classify_congr (fun _ _ => inByte_withMemory h) s.cfgAlpha

/-- The compressor's record (42_compressor.md R162): the same run is found, and stored if it lies inside IN. -/
theorem compressRecord_withMemory : compressRecord (s.withMemory m) = mapNext (State.withMemory m) (compressRecord s) := by
  simp only [compressRecord, nextRun_withMemory h]
  split_ifs with hz
  · rfl
  · have hpayload (hin : s.cur + span s.nextRun.kind s.nextRun.length ≤ s.inLen) :
        storePayload s.nextRun.kind (s.withMemory m).inByte s.cur s.nextRun.length =
          storePayload s.nextRun.kind s.inByte s.cur s.nextRun.length :=
      storePayload_congr _ (Nat.one_le_iff_ne_zero.mpr hz) fun i _ _ => inByte_withMemory h (by omega)
    rw [emitKind_eq, emitKind_eq, ← emitRun_withMemory]
    exact emitRun_congr hpayload

/-- A fetched record's bytes are the same: none lies at or beyond IN_LEN (40_token_codec.md R111). -/
theorem fetch_record_withMemory : (s.withMemory m).fetch .record = s.fetch .record :=
  readBytes_congr _ _ _ _ fun _ _ _ => inByte_withMemory h (by simp only [State.withMemory_cur, State.withMemory_inLen] at *; omega)

/-- A record of the decompressor (43_decompressor.md R182): the payload is read only if it lies inside IN. -/
theorem execRecord_withMemory (kind : Kind) (k n : Nat) :
    execRecord kind k n (s.withMemory m) = mapNext (State.withMemory m) (execRecord kind k n s) := by
  obtain hout | hfit := Nat.lt_or_ge s.inLen (s.cur + k + paySize kind n)
  · rw [execRecord_truncated kind k n s hout, execRecord_truncated kind k n (s.withMemory m) hout]; rfl
  · rw [execRecord_fits kind k n s hfit, execRecord_fits kind k n (s.withMemory m) hfit, State.withMemory_cur,
      restore_congr kind fun i _ _ => inByte_withMemory h (by omega)]
    rfl

/-- Every row of the table. -/
theorem exec_withMemory (i : Instr) : exec i (s.withMemory m) = mapNext (State.withMemory m) (exec i s) := by
  cases i with
  | reservedWA | malformedExt4 | hdr => rfl
  | _ n => exact execRecord_withMemory h _ _ n

/-- The decompressor's record, from its fetch on. -/
theorem fetchExec_record_withMemory :
    fetchExec .record (s.withMemory m) = mapNext (State.withMemory m) (fetchExec .record s) := by
  unfold fetchExec
  rw [fetch_record_withMemory h]
  cases decode .record (s.fetch .record) with
  | ok i => exact exec_withMemory h i
  | error e => rfl

/-- A step of a running compressor (42_compressor.md R172). -/
theorem compressStep_withMemory : compressStep (s.withMemory m) = mapNext (State.withMemory m) (compressStep s) := by
  rw [compressStep, compressStep, compressRecord_withMemory h, mapNext_ite, mapNext_ite]; rfl

/-- A step of a running decompressor (43_decompressor.md R193). -/
theorem decompressStep_withMemory : decompressStep (s.withMemory m) = mapNext (State.withMemory m) (decompressStep s) := by
  rw [decompressStep, decompressStep, fetchExec_record_withMemory h, decompressEnd_withMemory, mapNext_ite, mapNext_ite]; rfl

end

/-- Settles O55, by what each agent's step reads. -/
theorem busyStepReadsInside : Obligations.BusyStepReadsInside := by
  intro s a m hp h
  change step (s.withMemory m) = mapNext (State.withMemory m) (step s)
  have hp' : (s.withMemory m).phase = .busy a := hp
  cases a with
  | compressor => simp only [step, hp, hp', compressStep_withMemory h]
  | decompressor => simp only [step, hp, hp', decompressStep_withMemory h]

/-- Settles O56, by the three ways a step of a running operation can go on: a failure and a successful end write PHASE and RESULT,
and what moves CUR on appends to the sink. -/
theorem busyStepFrame : Obligations.BusyStepFrame := by
  intro s t a _ hp h
  obtain ⟨k, rfl⟩ | ⟨-, rfl⟩ | ⟨v, n, rfl, hn, hin, -⟩ := busy_step_next hp h
  · exact ⟨rfl, rfl, rfl, rfl, rfl, rfl, rfl, List.prefix_rfl, .inr rfl⟩
  · exact ⟨rfl, rfl, rfl, rfl, rfl, rfl, rfl, List.prefix_rfl, .inr rfl⟩
  · exact ⟨rfl, rfl, rfl, rfl, rfl, rfl, rfl, List.prefix_append _ _, .inl ⟨hp, Nat.lt_add_of_pos_right hn, hin, rfl⟩⟩

end Sys2Proof.Machine
end

section
/-!
The codec, both ways (40_token_codec.md R110 to R115): `unpack` reads back every token form, and whatever it answers is told by the
bytes it read. Then the same for the rows of the opcode table (30_encoding.md R84 to R97).
-/

namespace Sys2Proof

/-! ## The bytes of a token -/

/-- The last `j` bytes of a token for `n`: its `j` least-significant 7-bit groups, the highest first (30_encoding.md R86, R88). -/
def contBytes (n : Nat) : Nat → List Byte
  | 0 => []
  | j + 1 => contByte (decide (0 < j)) (n >>> (7 * j)) :: contBytes n j

/-- The continuation bytes as R110 numbers them. -/
theorem map_contByte_range' (n j : Nat) :
    ((List.range' 1 j).map fun i => contByte (decide (i < j)) (n >>> (7 * (j - i)))) = contBytes n j := by
  induction j with
  | zero => rfl
  | succ j ih =>
    rw [List.range'_succ, List.map_cons, ← List.map_add_range' 1, List.map_map, contBytes, ← ih]
    refine congrArg₂ _ (by simp) (List.map_congr_left fun i _ => ?_)
    simp only [Function.comp_apply, Nat.add_comm 1 i, Nat.add_lt_add_iff_right, Nat.add_sub_add_right]

/-- A token of `j + 1` bytes is its first byte and `j` continuation bytes (R110). -/
theorem tokenBytes_succ (kind : Kind) (j n : Nat) :
    tokenBytes kind (j + 1) n = firstByte kind (decide (0 < j)) (n >>> (7 * j)) :: contBytes n j := by
  simp only [tokenBytes, Nat.add_sub_cancel, map_contByte_range', Nat.lt_add_left_iff_pos]

/-- Taking in the group below those already read (R88). -/
theorem shiftRight_group (n j : Nat) : (n >>> (7 * (j + 1))) * 128 + (n >>> (7 * j)) % 128 = n >>> (7 * j) := by
  have hstep : n >>> (7 * (j + 1)) = (n >>> (7 * j)) / 128 := by
    rw [Nat.mul_succ, Nat.shiftRight_add, Nat.shiftRight_eq_div_pow]
  omega

/-! ## Every token form is read back -/

/-- The loop of `unpack` on the continuation bytes of `n`, the groups above them being read. -/
theorem unpackRest_contBytes (kind : Kind) (n : Nat) (tl : List Byte) {j more k : Nat} {b : Byte}
    (hb : isExtended b = decide (0 < j)) (hj : j ≤ more) :
    unpackRest kind more (n >>> (7 * j)) k b (contBytes n j ++ tl) = .ok ⟨kind, n, k + j⟩ := by
  induction j generalizing more k b with
  | zero => exact unpackRest_last _ _ _ _ _ _ hb
  | succ j ih =>
    obtain ⟨more, rfl⟩ : ∃ m, more = m + 1 := ⟨more - 1, by omega⟩
    rw [contBytes, List.cons_append, unpackRest_more _ _ _ _ _ _ _ (by simpa using hb), contGroup_contByte, shiftRight_group,
      ih (isExtended_contByte _ _) (by omega), Nat.add_assoc k, Nat.add_comm 1 j]

/-- `unpack` accepts every form of a token, whatever follows it (R114, 30_encoding.md R93 (a)). -/
theorem unpack_tokenBytes (kind : Kind) {k n : Nat} (rest : List Byte) (hlo : 1 ≤ k) (hhi : k ≤ 4)
    (hn : n < 2 ^ (kind.firstBits + 7 * (k - 1))) : unpack (tokenBytes kind k n ++ rest) = .ok ⟨kind, n, k⟩ := by
  obtain ⟨j, rfl⟩ : ∃ j, k = j + 1 := ⟨k - 1, by omega⟩
  have hgroup : n >>> (7 * j) < 2 ^ kind.firstBits := by
    rw [Nat.shiftRight_eq_div_pow, Nat.div_lt_iff_lt_mul (Nat.two_pow_pos _), ← Nat.pow_add]
    exact hn
  rw [tokenBytes_succ, List.cons_append, unpack_firstByte _ _ _ _ hgroup,
    unpackRest_contBytes _ _ _ (firstByte_fields kind _ _ hgroup).1 (by omega), Nat.add_comm 1 j]

/-! ## What `unpack` answers is told by the bytes -/

/-- A token the loop accepts: its lower groups are the continuation bytes read, its upper ones what had been read before. -/
theorem unpackRest_ok_contBytes {kind : Kind} {more len k : Nat} {b : Byte} {rest : List Byte} {t : Token}
    (h : unpackRest kind more len k b rest = .ok t) :
    ∃ j tl, isExtended b = decide (0 < j) ∧ t.kind = kind ∧ t.size = k + j ∧ t.length >>> (7 * j) = len ∧
      rest = contBytes t.length j ++ tl := by
  fun_induction unpackRest kind more len k b rest with
  | case1 len k b rest hb => cases h
  | case2 len k b hb more => cases h
  | case3 len k b hb more c cs ih =>
    obtain ⟨j, tl, hc, hkind, hsize, hlen, rfl⟩ := ih h
    have hgroup := contGroup_lt c
    have hstep := shiftRight_group t.length j
    rw [fold_group _ _ hgroup] at hlen
    have hbyte : contByte (decide (0 < j)) (t.length >>> (7 * j)) = c := by
      rw [contByte_eq, ← hc, show (t.length >>> (7 * j)) % 128 = contGroup c by omega, contByte_of_fields]
    refine ⟨j + 1, tl, by simpa using hb, hkind, by omega, by omega, ?_⟩
    rw [contBytes, hbyte, List.cons_append]
  | case4 more len k b rest hb =>
    cases h
    exact ⟨0, rest, by simpa using hb, rfl, rfl, rfl, rfl⟩

/-- An accepted token's flag, kind and most-significant group stand in its first byte, and the bytes begin with the token. -/
theorem unpack_cons_ok {b : Byte} {rest : List Byte} {t : Token} (h : unpack (b :: rest) = .ok t) :
    isExtended b = decide (1 < t.size) ∧ t.kind = firstKind b ∧ t.length >>> (7 * (t.size - 1)) = firstGroup b ∧
      ∃ tl, b :: rest = tokenBytes t.kind t.size t.length ++ tl := by
  cases hr : isReserved b with
  | true => rw [unpack_reserved _ _ hr] at h; cases h
  | false =>
    rw [unpack_first _ _ hr] at h
    obtain ⟨j, tl, hb, hkind, hsize, hlen, rfl⟩ := unpackRest_ok_contBytes h
    have hfirst := (firstByte_of_fields b hr).1
    rw [hsize, Nat.add_comm 1 j, Nat.add_sub_cancel]
    refine ⟨hb.trans (by simp), hkind, hlen, tl, ?_⟩
    rw [tokenBytes_succ, hlen, hkind, ← hb, hfirst, List.cons_append]

/-- What the loop fails for: a byte beyond the last the format allows, or one beyond the container (60_exceptions.md R226). -/
theorem unpackRest_error {kind : Kind} {more len k : Nat} {b : Byte} {rest : List Byte} {e : TokenError}
    (h : unpackRest kind more len k b rest = .error e) :
    (e = .fifthByte ∧ more ≤ rest.length ∨ e = .leavesContainer ∧ rest.length < more) ∧
      ∀ c ∈ b :: rest.take more, isExtended c = true := by
  fun_induction unpackRest kind more len k b rest with
  | case1 len k b rest hb => cases h; simpa using hb
  | case2 len k b hb more => cases h; simpa using hb
  | case3 len k b hb more c cs ih =>
    obtain ⟨hwhy, hall⟩ := ih h
    refine ⟨by simpa using hwhy, ?_⟩
    rw [List.take_succ_cons, List.forall_mem_cons]
    exact ⟨hb, hall⟩
  | case4 more len k b rest hb => cases h

/-- Four bytes that all announce another (R92 (b)): the fourth asks for a fifth. -/
theorem unpack_four_extended {b0 b1 b2 b3 : Byte} (rest : List Byte) (hr : isReserved b0 = false) (h0 : isExtended b0 = true)
    (h1 : isExtended b1 = true) (h2 : isExtended b2 = true) (h3 : isExtended b3 = true) :
    unpack (b0 :: b1 :: b2 :: b3 :: rest) = .error .fifthByte := by
  rw [unpack_first _ _ hr, unpackRest_more _ _ _ _ _ _ _ h0, unpackRest_more _ _ _ _ _ _ _ h1, unpackRest_more _ _ _ _ _ _ _ h2,
    unpackRest_full _ _ _ _ _ h3]

/-! ## The rows of a record -/

/-- Every row of the table: a token's in one of its four forms, a malformed pattern, or the header (30_encoding.md R97). -/
theorem Instr.row_cases (i : Instr) :
    (∃ kind k n, i = .ofToken ⟨kind, n, k⟩ ∧ 1 ≤ k ∧ k ≤ 4) ∨ (∃ ext low, i = .reservedWA ext low) ∨
      (∃ b0 b1 b2 b3, i = .malformedExt4 b0 b1 b2 b3) ∨ ∃ w, i = .hdr w := by
  cases i with
  | reservedWA ext low => exact .inr (.inl ⟨ext, low, rfl⟩)
  | malformedExt4 b0 b1 b2 b3 => exact .inr (.inr (.inl ⟨b0, b1, b2, b3, rfl⟩))
  | hdr w => exact .inr (.inr (.inr ⟨w, rfl⟩))
  | lit1 n => exact .inl ⟨.literal, 1, n, rfl, by decide⟩
  | lit2 n => exact .inl ⟨.literal, 2, n, rfl, by decide⟩
  | lit3 n => exact .inl ⟨.literal, 3, n, rfl, by decide⟩
  | lit4 n => exact .inl ⟨.literal, 4, n, rfl, by decide⟩
  | brep1 n => exact .inl ⟨.byteRepeat, 1, n, rfl, by decide⟩
  | brep2 n => exact .inl ⟨.byteRepeat, 2, n, rfl, by decide⟩
  | brep3 n => exact .inl ⟨.byteRepeat, 3, n, rfl, by decide⟩
  | brep4 n => exact .inl ⟨.byteRepeat, 4, n, rfl, by decide⟩
  | arep1 n => exact .inl ⟨.alphaRepeat, 1, n, rfl, by decide⟩
  | arep2 n => exact .inl ⟨.alphaRepeat, 2, n, rfl, by decide⟩
  | arep3 n => exact .inl ⟨.alphaRepeat, 3, n, rfl, by decide⟩
  | arep4 n => exact .inl ⟨.alphaRepeat, 4, n, rfl, by decide⟩
  | wrep1 n => exact .inl ⟨.wordRepeat, 1, n, rfl, by decide⟩
  | wrep2 n => exact .inl ⟨.wordRepeat, 2, n, rfl, by decide⟩
  | wrep3 n => exact .inl ⟨.wordRepeat, 3, n, rfl, by decide⟩
  | wrep4 n => exact .inl ⟨.wordRepeat, 4, n, rfl, by decide⟩

/-- A token's row: when it is well formed, where it stands, how it is encoded (R89, R97). -/
theorem Instr.ofToken_row (kind : Kind) (n : Nat) {k : Nat} (hlo : 1 ≤ k) (hhi : k ≤ 4) :
    (Instr.ofToken ⟨kind, n, k⟩).wf = decide (n < 2 ^ (kind.firstBits + 7 * (k - 1))) ∧
      (Instr.ofToken ⟨kind, n, k⟩).place = .record ∧ encode (.ofToken ⟨kind, n, k⟩) = tokenBytes kind k n := by
  obtain rfl | rfl | rfl | rfl : k = 1 ∨ k = 2 ∨ k = 3 ∨ k = 4 := by omega
  all_goals cases kind <;> exact ⟨rfl, rfl, rfl⟩

/-- A reserved first byte is `RESERVED.WA` (R92 (a)). -/
theorem decodeRecord_reserved {b : Byte} (rest : List Byte) (h : isReserved b = true) :
    decodeRecord (b :: rest) = .ok (reservedInstr b) := by
  simp only [decodeRecord, unpack_reserved _ _ h]

/-- Four bytes that all announce another are `MALFORMED.EXT4`, the first not being reserved (R92 (b), assumption 14). -/
theorem decodeRecord_four_extended {b0 b1 b2 b3 : Byte} (rest : List Byte) (hr : isReserved b0 = false) (h0 : isExtended b0 = true)
    (h1 : isExtended b1 = true) (h2 : isExtended b2 = true) (h3 : isExtended b3 = true) :
    decodeRecord (b0 :: b1 :: b2 :: b3 :: rest) = .ok (ext4Instr b0 b1 b2 b3) := by
  simp only [decodeRecord, unpack_four_extended rest hr h0 h1 h2 h3]

/-- The rows the record decoder can name, each with the bytes it was named from. -/
theorem decodeRecord_ok_bytes {bytes : List Byte} {i : Instr} (h : decodeRecord bytes = .ok i) :
    (∃ t, unpack bytes = .ok t ∧ i = .ofToken t) ∨
    (∃ b rest, bytes = b :: rest ∧ isReserved b = true ∧ i = reservedInstr b) ∨
    ∃ b0 b1 b2 b3 rest, bytes = b0 :: b1 :: b2 :: b3 :: rest ∧ isReserved b0 = false ∧ isExtended b0 = true ∧
      isExtended b1 = true ∧ isExtended b2 = true ∧ isExtended b3 = true ∧ i = ext4Instr b0 b1 b2 b3 := by
  cases bytes with
  | nil => cases h
  | cons b rest =>
    cases hr : isReserved b with
    | true =>
      rw [decodeRecord_reserved rest hr] at h
      cases h
      exact .inr (.inl ⟨b, rest, rfl, hr, rfl⟩)
    | false =>
      cases hu : unpack (b :: rest) with
      | ok t =>
        rw [decodeRecord_token t _ hu] at h
        cases h
        exact .inl ⟨t, rfl, rfl⟩
      | error e =>
        obtain ⟨⟨rfl, hlong⟩ | ⟨rfl, -⟩, hext⟩ := unpackRest_error ((unpack_first b rest hr).symm.trans hu)
        · match rest, hlong with
          | b1 :: b2 :: b3 :: rest, _ =>
            simp only [List.take_succ_cons, List.take_zero, List.forall_mem_cons] at hext
            obtain ⟨h0, h1, h2, h3, -⟩ := hext
            rw [decodeRecord_four_extended rest hr h0 h1 h2 h3] at h
            cases h
            exact .inr (.inr ⟨b, b1, b2, b3, rest, rfl, hr, h0, h1, h2, h3, rfl⟩)
        · simp only [decodeRecord, hu] at h; cases h

/-! ## The untested bits of the malformed patterns -/

/-- The byte of `RESERVED.WA`, read back. -/
theorem reservedByte_fields (ext : Bool) (low : BitVec 4) :
    isReserved (BitVec.ofNat 8 (0x70 ||| extBit ext ||| low.toNat)) = true ∧
      reservedInstr (BitVec.ofNat 8 (0x70 ||| extBit ext ||| low.toNat)) = .reservedWA ext low := by
  revert ext low; decide

/-- A reserved byte is the one its untested bits build. -/
theorem encodeReserved_of_fields {b : Byte} (h : isReserved b = true) : encodeReserved (isExtended b) (b.setWidth 4) = [b] := by
  revert b; decide

/-- The untested bits of a built byte of `MALFORMED.EXT4`. -/
@[simp] theorem setWidth_contByte (g : BitVec 7) : (contByte true g.toNat).setWidth 7 = g := by
  revert g; decide

/-- A byte with bit 7 set is the one its untested bits build. -/
theorem contByte_setWidth {b : Byte} (h : isExtended b = true) : contByte true (b.setWidth 7).toNat = b := by
  revert b; decide

/-- Bits 6, 5, 4 of a byte among its untested bits (assumption 14). -/
theorem isReserved_iff_setWidth (b : Byte) : isReserved b = true ↔ b.setWidth 7 &&& 0x70#7 = 0x70#7 := by
  revert b; decide

/-! ## The header's length field -/

/-- A header's length field, written and read back (20_memory.md R52). -/
theorem ofNat_le32_leBytes (w : Word32) :
    BitVec.ofNat 32 (le32 (BitVec.ofNat 8 w.toNat) (BitVec.ofNat 8 (w.toNat >>> 8)) (BitVec.ofNat 8 (w.toNat >>> 16))
      (BitVec.ofNat 8 (w.toNat >>> 24))) = w := by
  apply BitVec.eq_of_toNat_eq
  simp only [le32, BitVec.toNat_ofNat, Nat.shiftRight_eq_div_pow]
  omega

/-- The same, from bytes to bytes. -/
theorem leBytes_le32 (b0 b1 b2 b3 : Byte) : leBytes (BitVec.ofNat 32 (le32 b0 b1 b2 b3)).toNat = [b0, b1, b2, b3] := by
  simp only [leBytes, List.cons.injEq, and_true]
  refine ⟨?_, ?_, ?_, ?_⟩ <;> apply BitVec.eq_of_toNat_eq <;>
    simp only [le32, BitVec.toNat_ofNat, Nat.shiftRight_eq_div_pow] <;> omega

/-! ## The round trips -/

/-- Settles O1, by the kinds of row: tokens, the two malformed patterns, the header. -/
theorem decodeOfEncode : Obligations.DecodeOfEncode := by
  intro i rest hwf
  obtain ⟨kind, k, n, rfl, hlo, hhi⟩ | ⟨ext, low, rfl⟩ | ⟨b0, b1, b2, b3, rfl⟩ | ⟨w, rfl⟩ := i.row_cases
  · obtain ⟨hbits, hplace, henc⟩ := Instr.ofToken_row kind n hlo hhi
    rw [hbits, decide_eq_true_eq] at hwf
    rw [hplace, henc]
    exact decodeRecord_token _ _ (unpack_tokenBytes kind rest hlo hhi hwf)
  · obtain ⟨hreserved, hrow⟩ := reservedByte_fields ext low
    exact (decodeRecord_reserved rest hreserved).trans (congrArg _ hrow)
  · have hr : isReserved (contByte true b0.toNat) = false := by
      rw [← Bool.not_eq_true, isReserved_iff_setWidth, setWidth_contByte]
      simpa [Instr.wf] using hwf
    have hext (g : BitVec 7) : isExtended (contByte true g.toNat) = true := isExtended_contByte true g.toNat
    refine (decodeRecord_four_extended rest hr (hext b0) (hext b1) (hext b2) (hext b3)).trans ?_
    simp only [ext4Instr, setWidth_contByte]
  · exact congrArg (fun v => Except.ok (Instr.hdr v)) (ofNat_le32_leBytes w)

/-- A record's row is well formed, and the bytes it was decoded from begin with its encoding. -/
theorem decodeRecord_reads_encoding {bytes : List Byte} {i : Instr} (h : decodeRecord bytes = .ok i) :
    i.wf = true ∧ i.place = .record ∧ ∃ rest, bytes = encode i ++ rest := by
  obtain ⟨⟨kind, n, k⟩, ht, rfl⟩ | ⟨b, rest, rfl, hr, rfl⟩ | ⟨b0, b1, b2, b3, rest, rfl, hr, h0, h1, h2, h3, rfl⟩ :=
    decodeRecord_ok_bytes h
  · obtain ⟨hlo, hhi, hlt⟩ := unpack_ok ht
    obtain ⟨hwf, hplace, henc⟩ := Instr.ofToken_row kind n hlo hhi
    rw [hwf, henc]
    refine ⟨decide_eq_true hlt, hplace, ?_⟩
    cases bytes with
    | nil => cases ht
    | cons b rest =>
      obtain ⟨-, -, -, htoken⟩ := unpack_cons_ok ht
      exact htoken
  · exact ⟨rfl, rfl, rest, congrArg (· ++ rest) (encodeReserved_of_fields hr).symm⟩
  · refine ⟨decide_eq_true fun hbits => ?_, rfl, rest, ?_⟩
    · rw [← isReserved_iff_setWidth, hr] at hbits; cases hbits
    · simp only [encode, ext4Instr, encodeExt4, contByte_setWidth h0, contByte_setWidth h1, contByte_setWidth h2,
        contByte_setWidth h3, List.cons_append, List.nil_append]

/-- The same for the header (43_decompressor.md R181). -/
theorem decodeHeader_reads_encoding {bytes : List Byte} {i : Instr} (h : decodeHeader bytes = .ok i) :
    i.wf = true ∧ i.place = .header ∧ ∃ rest, bytes = encode i ++ rest := by
  obtain ⟨-, e⟩ | ⟨m0, m1, m2, m3, t0, t1, t2, t3, tl, rfl, ⟨-, e⟩ | ⟨hm, e⟩⟩ :=
    decodeHeader_cases bytes <;> rw [e] at h <;> cases h
  refine ⟨rfl, rfl, tl, ?_⟩
  rw [encode, encodeHeader, ← hm, leBytes_le32]; rfl

/-- Settles O2, place by place. -/
theorem decodeReadsEncoding : Obligations.DecodeReadsEncoding := by
  intro p bytes i h
  cases p with
  | header => exact decodeHeader_reads_encoding h
  | record => exact decodeRecord_reads_encoding h

end Sys2Proof
end

section
/-!
The lengths a token can hold (30_encoding.md R89, R90), and the first byte by its value (R94).
-/

namespace Sys2Proof

/-- `ntok` is the least byte count whose bits hold the length (R89). -/
theorem ntok_least (kind : Kind) {n : Nat} (hn : n < 2 ^ (kind.firstBits + 21)) :
    1 ≤ ntok kind n ∧ n < 2 ^ (kind.firstBits + 7 * (ntok kind n - 1)) ∧
      ∀ k, 1 ≤ k → k < ntok kind n → 2 ^ (kind.firstBits + 7 * (k - 1)) ≤ n := by
  have hmono {a b : Nat} (hab : a ≤ b) : 2 ^ (kind.firstBits + a) ≤ 2 ^ (kind.firstBits + b) :=
    Nat.pow_le_pow_right (by decide) (by omega)
  unfold ntok
  split_ifs with h1 h2 h3
  · exact ⟨by decide, h1, by omega⟩
  · exact ⟨by decide, h2, fun k _ _ => (hmono (by omega : 7 * (k - 1) ≤ 0)).trans (Nat.le_of_not_lt h1)⟩
  · exact ⟨by decide, h3, fun k _ _ => (hmono (by omega : 7 * (k - 1) ≤ 7)).trans (Nat.le_of_not_lt h2)⟩
  · exact ⟨by decide, hn, fun k _ _ => (hmono (by omega : 7 * (k - 1) ≤ 14)).trans (Nat.le_of_not_lt h3)⟩

/-- Settles O4: `pack` gives the form of `ntok` bytes. -/
theorem packIsShortest : Obligations.PackIsShortest := by
  intro kind n
  refine ⟨pack_overflow kind n, fun hn => ⟨_, pack_ok kind n hn, ?_⟩⟩
  obtain ⟨hpos, hfit, hleast⟩ := ntok_least kind hn
  rw [tokenBytes_length, Nat.sub_add_cancel hpos]
  exact ⟨hpos, ntok_le_four kind n, hfit, hleast⟩

/-- `is_extended` by the byte's value (R94). -/
theorem isExtended_iff_le (b : Byte) : isExtended b = true ↔ 0x80 ≤ b.toNat := by
  revert b; decide

/-- The reserved first bytes by their value (R94). -/
theorem isReserved_iff_le (b : Byte) : isReserved b = true ↔ 0x70 ≤ b.toNat % 0x80 := by
  revert b; decide

/-- The first bytes of a kind by their value (R94): from `base` of R110 on, as many as `F` bits count, bit 7 aside. -/
theorem firstByte_range (kind : Kind) {b : Byte} (hlo : kind.base ≤ b.toNat % 0x80)
    (hhi : b.toNat % 0x80 < kind.base + 2 ^ kind.firstBits) :
    isReserved b = false ∧ firstKind b = kind ∧ firstGroup b = b.toNat % 0x80 - kind.base := by
  revert b
  cases kind <;> decide

/-- The first bytes of a kind end below the reserved ones (R94). -/
theorem firstByte_range_bound (kind : Kind) : kind.base + 2 ^ kind.firstBits ≤ 0x70 := by
  cases kind <;> decide

/-- The reserved first bytes, in either half of the map (R94). -/
theorem unpack_reserved_range {b : Byte} (rest : List Byte) (h : 0x70 ≤ b.toNat % 0x80) : ∃ e, unpack (b :: rest) = .error e :=
  ⟨_, unpack_reserved b rest ((isReserved_iff_le b).mpr h)⟩

/-- A first byte below `0x80` is a token of its own (R94). -/
theorem unpack_one_byte_range (kind : Kind) {b : Byte} (rest : List Byte) (hlo : kind.base ≤ b.toNat)
    (hhi : b.toNat < kind.base + 2 ^ kind.firstBits) : unpack (b :: rest) = .ok ⟨kind, b.toNat - kind.base, 1⟩ := by
  have hbound := firstByte_range_bound kind
  have hmod : b.toNat % 0x80 = b.toNat := Nat.mod_eq_of_lt (by omega)
  have hext : isExtended b = false := by rw [← Bool.not_eq_true, isExtended_iff_le]; omega
  obtain ⟨hr, hkind, hgroup⟩ := firstByte_range kind (hmod.symm ▸ hlo) (hmod.symm ▸ hhi)
  rw [unpack_first b rest hr, unpackRest_last _ _ _ _ _ _ hext, hkind, hgroup, hmod]

/-- A first byte from `0x80` on gives the kind and the most-significant group of a longer token (R94). -/
theorem unpack_extended_range (kind : Kind) {b : Byte} {rest : List Byte} {t : Token} (hlo : 0x80 + kind.base ≤ b.toNat)
    (hhi : b.toNat < 0x80 + kind.base + 2 ^ kind.firstBits) (h : unpack (b :: rest) = .ok t) :
    t.kind = kind ∧ 2 ≤ t.size ∧ t.length >>> (7 * (t.size - 1)) = b.toNat - (0x80 + kind.base) := by
  have hbound := firstByte_range_bound kind
  have hmod : b.toNat % 0x80 = b.toNat - 0x80 := by omega
  have hext : isExtended b = true := (isExtended_iff_le b).mpr (by omega)
  obtain ⟨-, hkind, hgroup⟩ := firstByte_range kind (b := b) (by omega) (by omega)
  obtain ⟨hsize, htkind, hshift, -⟩ := unpack_cons_ok h
  rw [hext, eq_comm, decide_eq_true_eq] at hsize
  exact ⟨htkind.trans hkind, hsize, hshift.trans (by omega)⟩

/-- Settles O10, range by range of R94. -/
theorem firstByteMap : Obligations.FirstByteMap := by
  intro b rest
  have hb : b.toNat < 0x100 := b.isLt
  exact ⟨unpack_one_byte_range .literal rest (Nat.zero_le _), unpack_one_byte_range .byteRepeat rest,
    unpack_one_byte_range .alphaRepeat rest, unpack_one_byte_range .wordRepeat rest,
    fun _ _ => unpack_reserved_range rest (by omega),
    fun hlo hhi _ => unpack_extended_range .literal hlo hhi, fun hlo hhi _ => unpack_extended_range .byteRepeat hlo hhi,
    fun hlo hhi _ => unpack_extended_range .alphaRepeat hlo hhi, fun hlo hhi _ => unpack_extended_range .wordRepeat hlo hhi,
    fun _ => unpack_reserved_range rest (by omega)⟩

/-- Settles O11, by running the decoder on each word. -/
theorem wordsDecode : Obligations.WordsDecode := ⟨rfl, rfl, rfl, rfl, rfl, rfl, rfl⟩

end Sys2Proof
end

section
/-!
A record step of the decompressor from its fetch on (43_decompressor.md R182): the failures of a malformed token, and that
CFG.alpha is not read (30_encoding.md R96).
-/

namespace Sys2Proof.Machine

/-- A running decompressor before the end of IN fetches a record (43_decompressor.md R193). -/
theorem step_fetchExec {s : State} (hp : s.phase = .busy .decompressor) (hc : s.cur < s.inLen) : step s = fetchExec .record s := by
  simp only [step, hp, decompressStep, if_pos hc]

/-- Settles O13: the one rejection of a record is the failure MalformedToken. -/
theorem tokenLeavingContainerRaises : Obligations.TokenLeavingContainerRaises := by
  intro s e hp hc hd
  obtain rfl := decode_record_error _ e hd
  have hfetch : decode .record (s.fetch .record) = .error .leavesContainer := hd
  simp only [step_fetchExec hp hc, fetchExec, hfetch]
  rfl

/-- Settles O19: both rows are the failure's entry and nothing else. -/
theorem malformedRowsRaise : Obligations.MalformedRowsRaise := fun _ _ _ _ _ _ _ => ⟨rfl, rfl⟩

/-- `s` with another setting of CFG.alpha (10_state.md R21). -/
def State.withAlpha (alpha : Bool) (s : State) : State := { s with cfgAlpha := alpha }

/-- The record step reads nothing of CFG.alpha (30_encoding.md R96). -/
theorem execRecord_withAlpha (alpha : Bool) (kind : Kind) (k n : Nat) (s : State) :
    execRecord kind k n (s.withAlpha alpha) = mapNext (State.withAlpha alpha) (execRecord kind k n s) := by
  rw [execRecord, execRecord, mapNext_ite]; rfl

/-- No row of the table reads CFG.alpha. -/
theorem exec_withAlpha (alpha : Bool) (i : Instr) (s : State) :
    exec i (s.withAlpha alpha) = mapNext (State.withAlpha alpha) (exec i s) := by
  cases i with
  | reservedWA | malformedExt4 | hdr => rfl
  | _ n => exact execRecord_withAlpha alpha _ _ n s

/-- The fetch of a record and the row it runs read nothing of CFG.alpha. -/
theorem fetchExec_record_withAlpha (alpha : Bool) (s : State) :
    fetchExec .record (s.withAlpha alpha) = mapNext (State.withAlpha alpha) (fetchExec .record s) := by
  have hfetch : (s.withAlpha alpha).fetch .record = s.fetch .record := rfl
  unfold fetchExec
  rw [hfetch]
  cases decode .record (s.fetch .record) with
  | ok i => exact exec_withAlpha alpha i s
  | error e => rfl

/-- The end step reads nothing of CFG.alpha (43_decompressor.md R188). -/
theorem decompressEnd_withAlpha (alpha : Bool) (s : State) :
    decompressEnd (s.withAlpha alpha) = mapNext (State.withAlpha alpha) (decompressEnd s) := by
  rw [decompressEnd, decompressEnd, mapNext_ite]; rfl

/-- Settles O40, by the parts of a running decompressor's step. -/
theorem decompressorIgnoresAlpha : Obligations.DecompressorIgnoresAlpha := by
  intro s alpha hp
  change step (s.withAlpha alpha) = mapNext (State.withAlpha alpha) (step s)
  have hp' : (s.withAlpha alpha).phase = .busy .decompressor := hp
  simp only [step, hp, hp', decompressStep, fetchExec_record_withAlpha, decompressEnd_withAlpha, mapNext_ite]
  rfl

end Sys2Proof.Machine
end

section
/-!
TokenCodec as a whole (40_token_codec.md R112 to R115): `unpack` after `pack`, every accepted form, and which bytes `unpack` reads.
-/

namespace Sys2Proof

/-! ## The tokens the spec writes out -/

/-- Settles O7, by running `unpack` and `pack` on each token. -/
theorem overlongLiteralFive : Obligations.OverlongLiteralFive := ⟨rfl, rfl, rfl, rfl, rfl⟩

/-- Settles O5: the tokens by running `pack` at `MAXLEN`, the failures by its bound. -/
theorem overflowBoundary : Obligations.OverflowBoundary :=
  ⟨rfl, pack_overflow .literal _ (by decide), rfl, rfl, rfl, pack_overflow .byteRepeat _ (by decide),
    pack_overflow .wordRepeat _ (by decide), pack_overflow .alphaRepeat _ (by decide)⟩

/-! ## `unpack` and the token's forms -/

/-- The bytes of an accepted token begin with its form of that many bytes (R114). -/
theorem unpack_ok_tokenBytes {bytes : List Byte} {t : Token} (h : unpack bytes = .ok t) :
    ∃ tl, bytes = tokenBytes t.kind t.size t.length ++ tl := by
  cases bytes with
  | nil => cases h
  | cons b rest =>
    obtain ⟨-, -, -, hbytes⟩ := unpack_cons_ok h
    exact hbytes

/-- Settles O6: every form is read back, and what is accepted fits and is told by the bytes. -/
theorem unpackAcceptsEveryForm : Obligations.UnpackAcceptsEveryForm := by
  refine ⟨fun kind _ _ rest hlo hhi hn => unpack_tokenBytes kind rest hlo hhi hn, fun bytes t h => ?_⟩
  obtain ⟨hlo, hhi, hfit⟩ := unpack_ok h
  exact ⟨hlo, hhi, hfit, unpack_ok_tokenBytes h⟩

/-- Settles O3: `pack` gives the form of `ntok` bytes, which is read back; the converse fails at `80 05`, whose length packs to `05`
(R112). -/
theorem unpackOfPack : Obligations.UnpackOfPack := by
  refine ⟨fun kind n hmax => ?_, ?_⟩
  · have hn : n < 2 ^ (kind.firstBits + 21) := by
      rw [← Nat.not_le, ← maxLen_lt]
      exact Nat.not_lt.mpr hmax
    obtain ⟨hpos, hfit, -⟩ := ntok_least kind hn
    refine ⟨_, pack_ok kind n hn, fun rest => ?_⟩
    rw [tokenBytes_length, Nat.sub_add_cancel hpos]
    exact unpack_tokenBytes kind rest hpos (ntok_le_four kind n) hfit
  · obtain ⟨-, hunpack, -, -, hpack⟩ := overlongLiteralFive
    exact ⟨_, _, _, hunpack, rfl, hpack, by decide⟩

/-! ## The bytes `unpack` reads -/

/-- The loop reads no more further bytes than the format allows (R111). -/
theorem unpackRest_take (kind : Kind) (more len k : Nat) (b : Byte) (rest : List Byte) :
    unpackRest kind more len k b (rest.take more) = unpackRest kind more len k b rest := by
  induction more generalizing len k b rest with
  | zero =>
    cases hb : isExtended b with
    | true => rw [unpackRest_full _ _ _ _ _ hb, unpackRest_full _ _ _ _ _ hb]
    | false => rw [unpackRest_last _ _ _ _ _ _ hb, unpackRest_last _ _ _ _ _ _ hb]
  | succ more ih =>
    cases hb : isExtended b with
    | false => rw [unpackRest_last _ _ _ _ _ _ hb, unpackRest_last _ _ _ _ _ _ hb]
    | true =>
      cases rest with
      | nil => rfl
      | cons c cs => rw [List.take_succ_cons, unpackRest_more _ _ _ _ _ _ _ hb, unpackRest_more _ _ _ _ _ _ _ hb, ih]

/-- `unpack` reads at most four bytes (R111). -/
theorem unpack_take_four (bytes : List Byte) : unpack (bytes.take 4) = unpack bytes := by
  cases bytes with
  | nil => rfl
  | cons b rest =>
    rw [List.take_succ_cons]
    cases hr : isReserved b with
    | true => rw [unpack_reserved _ _ hr, unpack_reserved _ _ hr]
    | false => rw [unpack_first _ _ hr, unpack_first _ _ hr, unpackRest_take]

/-- Settles O9: an accepted token's bytes are its form, which is read back whatever follows it. -/
theorem unpackReadsOnlyItsToken : Obligations.UnpackReadsOnlyItsToken := by
  refine ⟨fun bytes t h => ?_, unpack_take_four⟩
  obtain ⟨hlo, hhi, hfit⟩ := unpack_ok h
  have hlen : (tokenBytes t.kind t.size t.length).length = t.size := by rw [tokenBytes_length, Nat.sub_add_cancel hlo]
  obtain ⟨tl, rfl⟩ := unpack_ok_tokenBytes h
  refine ⟨by rw [List.length_append, hlen]; exact Nat.le_add_right _ _, fun other => ?_⟩
  rw [List.take_left' hlen]
  exact unpack_tokenBytes t.kind other hlo hhi hfit

end Sys2Proof
end

section
/-!
What each step of the classifier answers (41_run_classifier.md R132 to R136), and from it the bounds and soundness of every run
(R137, R138, R140).
-/

namespace Sys2Proof.Machine

/-- A loop that counted past its start had its condition at every number before the count. -/
theorem of_lt_countWhile {p : Nat → Bool} {fuel n j : Nat} (hn : n ≤ j) (h : j < countWhile p fuel n) : p j = true := by
  obtain ⟨-, -, hp, -⟩ := countWhile_spec p fuel n
  exact hp j hn h

section
variable {rd : Nat → Byte} {len cur : Nat}

/-- The guard of steps 1 and 3: an aligned cursor with a whole word after it (R132, R134). -/
theorem wordGuard_iff : (aligned cur && decide (cur + 4 ≤ len)) = true ↔ cur % 4 = 0 ∧ cur + 4 ≤ len := by
  rw [Bool.and_eq_true, aligned_iff, decide_eq_true_eq]

/-! ## Inversion: what a step that classifies has found -/

/-- Step 1 (R132). -/
theorem classifyWord_some {r : Run} (h : classifyWord rd len cur = some r) :
    ∃ n, cur % 4 = 0 ∧ 2 ≤ n ∧ cur + 4 * n ≤ len ∧ (∀ j i, j < n → i < 4 → rd (cur + 4 * j + i) = rd (cur + i)) ∧
      r = if broadcast rd cur then ⟨.byteRepeat, 4 * n⟩ else ⟨.wordRepeat, n⟩ := by
  unfold classifyWord at h
  split at h
  · rename_i hin
    obtain ⟨halign, -⟩ := wordGuard_iff.mp hin
    extract_lets n at h
    split at h
    · rename_i hn
      have hmore : ∀ j, 1 ≤ j → j < n → moreWords rd len cur j = true := fun j hj hlt => of_lt_countWhile hj hlt
      obtain ⟨hlast, -⟩ := (moreWords_iff _ _ _ _).mp (hmore (n - 1) (by omega) (by omega))
      refine ⟨n, halign, hn, by omega, fun j i hj hi => ?_, ?_⟩
      · cases j with
        | zero => rfl
        | succ j => exact ((moreWords_iff _ _ _ _).mp (hmore (j + 1) (by omega) hj)).2 i hi
      · rw [← Option.some_inj, ← h]; split <;> rfl
    · cases h
  · cases h

/-- Step 2 (R133). -/
theorem classifyByte_some {r : Run} (h : classifyByte rd len cur = some r) :
    ∃ c, 3 ≤ c ∧ cur + c ≤ len ∧ (∀ j, j < c → rd (cur + j) = rd cur) ∧ r = ⟨.byteRepeat, c⟩ := by
  unfold classifyByte at h
  extract_lets c at h
  split at h
  · rename_i hc
    have hmore : ∀ j, 1 ≤ j → j < c → moreBytes rd len cur j = true := fun j hj hlt => of_lt_countWhile hj hlt
    obtain ⟨hlast, -⟩ := (moreBytes_iff _ _ _ _).mp (hmore (c - 1) (by omega) (by omega))
    refine ⟨c, hc, by omega, fun j hj => ?_, (Option.some.inj h).symm⟩
    cases j with
    | zero => rfl
    | succ j => exact ((moreBytes_iff _ _ _ _).mp (hmore (j + 1) (by omega) hj)).2
  · cases h

/-- Step 3 (R134), which is skipped with `CFG.alpha` 0 (R137). -/
theorem classifyAlpha_some {alpha : Bool} {r : Run} (h : classifyAlpha rd len cur alpha = some r) :
    ∃ m, alpha = true ∧ 3 ≤ m ∧ cur + 4 * m ≤ len ∧ (∀ j, j < m → rd (cur + 4 * j) = rd cur) ∧ r = ⟨.alphaRepeat, m⟩ := by
  unfold classifyAlpha at h
  split at h
  · rename_i hin
    simp only [Bool.and_eq_true] at hin
    obtain ⟨⟨halpha, -⟩, -⟩ := hin
    extract_lets m at h
    split at h
    · rename_i hm
      have hmore : ∀ j, 1 ≤ j → j < m → morePixels rd len cur j = true := fun j hj hlt => of_lt_countWhile hj hlt
      obtain ⟨hlast, -⟩ := (morePixels_iff _ _ _ _).mp (hmore (m - 1) (by omega) (by omega))
      refine ⟨m, halpha, hm, by omega, fun j hj => ?_, (Option.some.inj h).symm⟩
      cases j with
      | zero => rfl
      | succ j =>
        obtain ⟨-, hbyte, -⟩ := (morePixels_iff _ _ _ _).mp (hmore (j + 1) (by omega) hj)
        exact hbyte
    · cases h
  · cases h

/-- Step 1 classifies just where an equal word follows the first (R132). -/
theorem classifyWord_eq_none_iff : classifyWord rd len cur = none ↔
    (cur % 4 = 0 → cur + 8 ≤ len → ∃ i, i < 4 ∧ rd (cur + 4 + i) ≠ rd (cur + i)) := by
  constructor
  · intro h halign hlen
    by_contra! heq
    have hsecond : moreWords rd len cur 1 = true := (moreWords_iff _ _ _ _).mpr ⟨by omega, heq⟩
    obtain ⟨hpos, -, -, hstop⟩ := countWhile_spec (moreWords rd len cur) (len - cur) 1
    have hcount : countWhile (moreWords rd len cur) (len - cur) 1 > 1 := by
      by_contra hle
      rw [show countWhile (moreWords rd len cur) (len - cur) 1 = 1 by omega, hsecond] at hstop
      exact absurd (hstop (by omega)) (by decide)
    simp only [classifyWord, if_pos (wordGuard_iff.mpr ⟨halign, (by omega : cur + 4 ≤ len)⟩), if_pos hcount] at h
    split at h <;> cases h
  · intro h
    rw [Option.eq_none_iff_forall_ne_some]
    intro r hr
    obtain ⟨n, halign, hn, hfit, hwords, -⟩ := classifyWord_some hr
    obtain ⟨i, hi, hne⟩ := h halign (by omega)
    exact hne (hwords 1 i (by omega) hi)

/-- Trigger (b) looks back to the cursor only from the end of the word after it, and then step 1 has classified (R132, R135). -/
theorem lt_of_triggerWord {i : Nat} (hword : classifyWord rd len cur = none) (hb : triggerWord rd cur i = true) (hhi : i < len) :
    cur + 7 < i := by
  obtain ⟨halign, hlo, heq⟩ := (triggerWord_iff _ _ _).mp hb
  rcases hlo.lt_or_eq with hlt | rfl
  · exact hlt
  · obtain ⟨j, hj, hne⟩ := classifyWord_eq_none_iff.mp hword (by omega) hhi
    exact absurd (heq j hj) hne

/-- Step 4 ends at least one byte after the cursor and inside the buffer (R135, R136). -/
theorem classifyLiteral_bounds (alpha : Bool) (hword : classifyWord rd len cur = none) (hcur : cur < len) :
    1 ≤ (classifyLiteral rd len cur alpha).length ∧ cur + (classifyLiteral rd len cur alpha).length ≤ len := by
  unfold classifyLiteral
  obtain ⟨hscan, -⟩ | ⟨i, hlo, hhi, -, ⟨-, hscan⟩ | ⟨-, hb, hscan⟩ | ⟨-, -, hc, hscan⟩⟩ :=
    scanLiteral_cases rd cur alpha (len - (cur + 3)) (cur + 3) <;> simp only [hscan]
  · omega
  · omega
  · have := lt_of_triggerWord hword hb (by omega)
    omega
  · obtain ⟨-, -, hi, -⟩ := (triggerAlpha_iff _ _ _ _).mp hc
    omega

/-! ## Soundness -/

/-- What a run the classifier returns promises of the buffer (R137, R138, R140). -/
inductive SoundRun (rd : Nat → Byte) (len cur : Nat) (alpha : Bool) : Run → Prop
  | literal {n : Nat} (bounds : cur < len → 1 ≤ n ∧ cur + n ≤ len) : SoundRun rd len cur alpha ⟨.literal, n⟩
  | byteRepeat {n : Nat} (pos : 1 ≤ n) (fits : cur + n ≤ len) (equal : ∀ j, j < n → rd (cur + j) = rd cur) :
      SoundRun rd len cur alpha ⟨.byteRepeat, n⟩
  | wordRepeat {n : Nat} (pos : 1 ≤ n) (fits : cur + 4 * n ≤ len)
      (equal : ∀ j i, j < n → i < 4 → rd (cur + 4 * j + i) = rd (cur + i)) : SoundRun rd len cur alpha ⟨.wordRepeat, n⟩
  | alphaRepeat {n : Nat} (enabled : alpha = true) (pos : 1 ≤ n) (fits : cur + 4 * n ≤ len)
      (equal : ∀ j, j < n → rd (cur + 4 * j) = rd cur) : SoundRun rd len cur alpha ⟨.alphaRepeat, n⟩

/-- Copies of a broadcast word are copies of its byte (R132). -/
theorem bytes_equal_of_words {n : Nat} (hwords : ∀ j i, j < n → i < 4 → rd (cur + 4 * j + i) = rd (cur + i))
    (hb : broadcast rd cur = true) {j : Nat} (hj : j < 4 * n) : rd (cur + j) = rd cur :=
  calc rd (cur + j) = rd (cur + 4 * (j / 4) + j % 4) := by rw [Nat.add_assoc, Nat.div_add_mod]
    _ = rd (cur + j % 4) := hwords _ _ (by omega) (Nat.mod_lt _ (by decide))
    _ = rd cur := (broadcast_iff _ _).mp hb _ (Nat.mod_lt _ (by decide))

/-- Every run is sound, whichever step returned it (R130). -/
theorem classify_sound (rd : Nat → Byte) (len cur : Nat) (alpha : Bool) :
    SoundRun rd len cur alpha (classify rd len cur alpha) := by
  obtain hw | ⟨-, hb⟩ | ⟨-, -, ha⟩ | ⟨hw, -, -, hl⟩ := classify_cases rd len cur alpha
  · obtain ⟨n, -, hn, hfit, hwords, hrun⟩ := classifyWord_some hw
    rw [hrun]
    split
    · exact .byteRepeat (by omega) hfit fun j hj => bytes_equal_of_words hwords ‹_› hj
    · exact .wordRepeat (by omega) hfit hwords
  · obtain ⟨c, hc, hfit, hbytes, hrun⟩ := classifyByte_some hb
    rw [hrun]
    exact .byteRepeat (by omega) hfit hbytes
  · obtain ⟨m, halpha, hm, hfit, hbytes, hrun⟩ := classifyAlpha_some ha
    rw [hrun]
    exact .alphaRepeat halpha (by omega) hfit hbytes
  · have hshape : classifyLiteral rd len cur alpha = ⟨.literal, (classifyLiteral rd len cur alpha).length⟩ :=
      congrArg (Run.mk · _) (classifyLiteral_kind rd len cur alpha)
    rw [hl, hshape]
    exact .literal (classifyLiteral_bounds alpha hw)

/-- A sound run is not empty and stays inside the buffer (R138). -/
theorem SoundRun.bounds {alpha : Bool} {r : Run} (h : SoundRun rd len cur alpha r) (hcur : cur < len) :
    1 ≤ r.length ∧ cur + span r.kind r.length ≤ len := by
  cases h with
  | literal bounds => exact bounds hcur
  | byteRepeat pos fits _ => exact ⟨pos, fits⟩
  | wordRepeat pos fits _ => exact ⟨pos, fits⟩
  | alphaRepeat _ pos fits _ => exact ⟨pos, fits⟩

end

/-- Settles O23: the bounds every sound run has. -/
theorem classifyStaysInside : Obligations.ClassifyStaysInside :=
  fun rd len cur alpha hcur => (classify_sound rd len cur alpha).bounds hcur

/-- Settles O24: the bounds, then each repeat kind's clause of soundness. -/
theorem classifySound : Obligations.ClassifySound := by
  intro rd len cur n alpha hcur
  have hsound := classify_sound rd len cur alpha
  refine ⟨fun kind h => ?_, fun h => ?_, fun h => ?_, fun h => ?_⟩ <;> rw [h] at hsound
  · exact hsound.bounds hcur
  · cases hsound with | byteRepeat _ _ equal => exact equal
  · cases hsound with | wordRepeat _ _ equal => exact equal
  · cases hsound with | alphaRepeat _ _ _ equal => exact equal

/-- Settles O25: the run is a function of the bytes from the cursor to the buffer's end. -/
theorem classifyReadsAhead : Obligations.ClassifyReadsAhead :=
  fun _ _ _ _ alpha _ hagree => classify_congr hagree alpha

/-- Settles O26: a sound AlphaRepeat needs `CFG.alpha` 1. -/
theorem noAlphaWhenDisabled : Obligations.NoAlphaWhenDisabled := by
  intro rd len cur
  generalize hrun : classify rd len cur false = r
  cases hrun ▸ classify_sound rd len cur false with
  | literal | byteRepeat | wordRepeat => nofun
  | alphaRepeat enabled => cases enabled

end Sys2Proof.Machine
end

section
/-!
The exact run of each step of the classifier (41_run_classifier.md R132 to R136): where its loop stops there, the step returns the
count; where the literal scan meets its first trigger, the literal ends there.
-/

namespace Sys2Proof.Machine

section
variable {rd : Nat → Byte} {len cur : Nat}

/-! ## The order of the steps (R130) -/

/-- Step 1 comes first. -/
theorem classify_of_word {r : Run} (alpha : Bool) (h : classifyWord rd len cur = some r) : classify rd len cur alpha = r := by
  simp only [classify, h]

/-- Step 2, where step 1 does not classify. -/
theorem classify_of_byte {r : Run} (alpha : Bool) (hw : classifyWord rd len cur = none)
    (h : classifyByte rd len cur = some r) : classify rd len cur alpha = r := by
  simp only [classify, hw, h]

/-- Step 3, where steps 1 and 2 do not classify. -/
theorem classify_of_alpha {r : Run} {alpha : Bool} (hw : classifyWord rd len cur = none) (hb : classifyByte rd len cur = none)
    (h : classifyAlpha rd len cur alpha = some r) : classify rd len cur alpha = r := by
  simp only [classify, hw, hb, h]

/-- Step 4, where no other step classifies. -/
theorem classify_of_literal {alpha : Bool} (hw : classifyWord rd len cur = none) (hb : classifyByte rd len cur = none)
    (ha : classifyAlpha rd len cur alpha = none) : classify rd len cur alpha = classifyLiteral rd len cur alpha := by
  simp only [classify, hw, hb, ha]

/-- Step 2 does not classify where one of the next two bytes differs (R133). -/
theorem classifyByte_eq_none (h : ¬ (rd (cur + 1) = rd cur ∧ rd (cur + 2) = rd cur)) : classifyByte rd len cur = none := by
  rw [Option.eq_none_iff_forall_ne_some]
  intro r hr
  obtain ⟨c, hc, -, hbytes, -⟩ := classifyByte_some hr
  exact h ⟨hbytes 1 (by omega), hbytes 2 (by omega)⟩

/-! ## Where a step classifies -/

/-- Step 1 with a known count (R132). -/
theorem classifyWord_of_count {n : Nat} (halign : cur % 4 = 0) (hn : 2 ≤ n) (hfit : cur + 4 * n ≤ len)
    (hmore : ∀ j, 1 ≤ j → j < n → moreWords rd len cur j = true) (hstop : moreWords rd len cur n = false) :
    classifyWord rd len cur = some (if broadcast rd cur then ⟨.byteRepeat, 4 * n⟩ else ⟨.wordRepeat, n⟩) := by
  have hcount : countWhile (moreWords rd len cur) (len - cur) 1 = n :=
    countWhile_eq _ _ _ _ (by omega) (by omega) hmore hstop
  simp only [classifyWord, if_pos (wordGuard_iff.mpr ⟨halign, (by omega : cur + 4 ≤ len)⟩), hcount, if_pos (show n > 1 from hn)]
  split <;> rfl

/-- Step 2 with a known count (R133). -/
theorem classifyByte_of_count {c : Nat} (hc : 3 ≤ c) (hfit : cur + c ≤ len)
    (hmore : ∀ j, 1 ≤ j → j < c → moreBytes rd len cur j = true) (hstop : moreBytes rd len cur c = false) :
    classifyByte rd len cur = some ⟨.byteRepeat, c⟩ := by
  have hcount : countWhile (moreBytes rd len cur) (len - cur) 1 = c :=
    countWhile_eq _ _ _ _ (by omega) (by omega) hmore hstop
  simp only [classifyByte, hcount, if_pos (show c > 2 from hc)]

/-- Step 3 with a known count (R134). -/
theorem classifyAlpha_of_count {m : Nat} (halign : cur % 4 = 0) (hm : 3 ≤ m) (hfit : cur + 4 * m ≤ len)
    (hmore : ∀ j, 1 ≤ j → j < m → morePixels rd len cur j = true) (hstop : morePixels rd len cur m = false) :
    classifyAlpha rd len cur true = some ⟨.alphaRepeat, m⟩ := by
  have hcount : countWhile (morePixels rd len cur) (len - cur) 1 = m :=
    countWhile_eq _ _ _ _ (by omega) (by omega) hmore hstop
  simp only [classifyAlpha, Bool.true_and, if_pos (wordGuard_iff.mpr ⟨halign, (by omega : cur + 4 ≤ len)⟩), hcount,
    if_pos (show m > 2 from hm)]

/-! ## The literal scan -/

/-- No trigger fires at index `i` (R135). -/
def Quiet (rd : Nat → Byte) (cur : Nat) (alpha : Bool) (i : Nat) : Prop :=
  triggerByte rd i = false ∧ triggerWord rd cur i = false ∧ triggerAlpha rd cur alpha i = false

/-- The scan passes over the indices at which no trigger fires. -/
theorem scanLiteral_quiet {alpha : Bool} (count : Nat) {k i : Nat} (h : ∀ j, i ≤ j → j < i + k → Quiet rd cur alpha j) :
    scanLiteral rd cur alpha (k + count) i = scanLiteral rd cur alpha count (i + k) := by
  induction k generalizing i with
  | zero => rw [Nat.zero_add, Nat.add_zero]
  | succ k ih =>
    obtain ⟨ha, hb, hc⟩ := h i le_rfl (by omega)
    rw [show k + 1 + count = k + count + 1 by omega, show i + (k + 1) = i + 1 + k by omega,
      ← ih fun j hlo hhi => h j (by omega) (by omega)]
    simp [scanLiteral, ha, hb, hc]

/-- Without a trigger the literal is the rest of the buffer (R136). -/
theorem classifyLiteral_quiet {alpha : Bool} (h : ∀ i, cur + 3 ≤ i → i < len → Quiet rd cur alpha i) :
    classifyLiteral rd len cur alpha = ⟨.literal, len - cur⟩ := by
  have hscan := scanLiteral_quiet 0 (k := len - (cur + 3)) fun j hlo hhi => h j hlo (by omega)
  rw [Nat.add_zero] at hscan
  simp only [classifyLiteral, hscan, scanLiteral]

/-- The literal ends at the first index at which the scan does not go on (R135). -/
theorem classifyLiteral_of_first {alpha : Bool} {i n : Nat} (hlo : cur + 3 ≤ i) (hhi : i < len)
    (hquiet : ∀ j, cur + 3 ≤ j → j < i → Quiet rd cur alpha j)
    (hi : ∀ count, scanLiteral rd cur alpha (count + 1) i = some n) :
    classifyLiteral rd len cur alpha = ⟨.literal, n⟩ := by
  have hscan := scanLiteral_quiet (len - i - 1 + 1) (k := i - (cur + 3)) fun j hlo' hhi' => hquiet j hlo' (by omega)
  rw [show i - (cur + 3) + (len - i - 1 + 1) = len - (cur + 3) by omega, show cur + 3 + (i - (cur + 3)) = i by omega, hi] at hscan
  simp only [classifyLiteral, hscan]

end

/-- Settles O27: step 1's loop stops at `n`, and the broadcast test is the one the two clauses make. -/
theorem wordStepExact : Obligations.WordStepExact := by
  intro rd len cur n alpha halign hn hfit hwords hstop
  have hmore : ∀ j, 1 ≤ j → j < n → moreWords rd len cur j = true := fun j _ hj =>
    (moreWords_iff _ _ _ _).mpr ⟨by omega, fun i hi => hwords j i hj hi⟩
  have hend : moreWords rd len cur n = false := by
    rw [← Bool.not_eq_true, moreWords_iff]
    rintro ⟨hin, heq⟩
    obtain ⟨i, hi, hne⟩ := hstop hin
    exact hne (heq i hi)
  rw [classify_of_word alpha (classifyWord_of_count halign hn hfit hmore hend)]
  constructor
  · intro heq
    rw [if_pos ((broadcast_iff rd cur).mpr heq)]
  · rintro ⟨i, hi, hne⟩
    rw [if_neg fun hb => hne ((broadcast_iff rd cur).mp hb i hi)]

/-- Settles O28: step 2's loop stops at `c`. -/
theorem byteStepExact : Obligations.ByteStepExact := by
  intro rd len cur c alpha hword hc hfit hbytes hstop
  have hmore : ∀ j, 1 ≤ j → j < c → moreBytes rd len cur j = true := fun j _ hj =>
    (moreBytes_iff _ _ _ _).mpr ⟨by omega, hbytes j hj⟩
  have hend : moreBytes rd len cur c = false := by
    rw [← Bool.not_eq_true, moreBytes_iff]
    exact fun ⟨hin, heq⟩ => hstop hin heq
  exact classify_of_byte alpha (classifyWord_eq_none_iff.mpr hword) (classifyByte_of_count hc hfit hmore hend)

/-- Settles O29: step 3's loop stops at `m`, by the buffer's end, another alpha byte or an identical pair. -/
theorem alphaStepExact : Obligations.AlphaStepExact := by
  intro rd len cur m halign hword hbyte hm hfit halphas hpairs hstop
  have hmore : ∀ j, 1 ≤ j → j < m → morePixels rd len cur j = true := fun j hpos hj =>
    (morePixels_iff _ _ _ _).mpr ⟨by omega, halphas j hj, hpairs j hpos hj⟩
  have hend : morePixels rd len cur m = false := by
    rw [← Bool.not_eq_true, morePixels_iff]
    rintro ⟨hin, heq, hnopair⟩
    obtain hne | ⟨hin8, hpair⟩ := hstop hin
    · exact hne heq
    · obtain ⟨i, hi, hne⟩ := hnopair hin8
      exact hne (hpair i hi)
  exact classify_of_alpha (classifyWord_eq_none_iff.mpr fun _ => hword) (classifyByte_eq_none hbyte)
    (classifyAlpha_of_count halign hm hfit hmore hend)

/-- Settles O30: up to the earliest trigger the scan goes on, and there it ends by the first of the three that fires. -/
theorem literalStepExact : Obligations.LiteralStepExact := by
  intro rd len cur alpha hword hbyte halpha a b c
  have ha : ∀ i, a i ↔ triggerByte rd i = true := fun i => (triggerByte_iff rd i).symm
  have hb : ∀ i, b i ↔ triggerWord rd cur i = true := fun i => (triggerWord_iff rd cur i).symm
  have hc : ∀ i, c i ↔ triggerAlpha rd cur alpha i = true := fun i => (triggerAlpha_iff rd cur i alpha).symm
  simp only [classify_of_literal hword hbyte halpha, ha, hb, hc, Bool.not_eq_true]
  refine ⟨fun i hlo hhi hquiet => ⟨fun hi => ?_, fun hna hi => ?_, fun hna hnb hi => ?_⟩, classifyLiteral_quiet⟩
  · exact classifyLiteral_of_first hlo hhi hquiet fun _ => by simp only [scanLiteral, hi, if_true]
  · exact classifyLiteral_of_first hlo hhi hquiet fun _ => by simp [scanLiteral, hna, hi]
  · exact classifyLiteral_of_first hlo hhi hquiet fun _ => by simp [scanLiteral, hna, hnb, hi]

end Sys2Proof.Machine
end

section
/-!
The compressor's start, record and end steps (42_compressor.md R161 to R169), and that no step faults from a state with the
invariant (R172, 43_decompressor.md R193).
-/

namespace Sys2Proof.Machine

/-! ## The start step -/

/-- A launch of a buffer below the bound with a disjoint sink takes its start step (44_host_interface.md R203, R204). -/
theorem launchWith_accepted {l : Launch} (h : l.input.length < 2 ^ 32) (ho : l.overlaps = false) (s : State)
    (start : State → Outcome) : launchWith l s start = start (s.setInput l.input) :=
  (if_pos h).trans (if_neg (by simp [ho]))

/-- The bytes of `LE32(v)` as numbers (00_scope.md R7). -/
theorem map_toNat_leBytes {v : Nat} (h : v < 2 ^ 32) :
    (leBytes v).map BitVec.toNat = [v % 256, v / 256 % 256, v / 65536 % 256, v / 16777216] := by
  have htop : v / 16777216 % 256 = v / 16777216 := Nat.mod_eq_of_lt (by omega)
  simp [leBytes, Nat.shiftRight_eq_div_pow, htop]

/-- Settles O31: the launch is accepted and its start step emits the magic and the length. -/
theorem compressStartEmitsHeader : Obligations.CompressStartEmitsHeader := by
  intro s l rest hf hc ho hl
  have hstep : step s = compressStart (({ s with calls := rest } : State).setInput l.input) := by
    rw [step_call hf hc, hostCall, launchWith_accepted hl ho]
  exact ⟨_, hstep.trans (compressStart_eq _), rfl, rfl, rfl, rfl, loadedBufferReadsBack l.input, rfl, rfl,
    map_toNat_leBytes hl, rfl, rfl, rfl, rfl⟩

/-! ## The record step -/

/-- The run at CUR is sound (41_run_classifier.md R140). -/
theorem State.nextRun_sound (s : State) : SoundRun s.inByte s.inLen s.cur s.cfgAlpha s.nextRun :=
  classify_sound s.inByte s.inLen s.cur s.cfgAlpha

/-- A record of the compressor is the emit of the run at CUR, which is not empty, so that Unknown is not raised (42_compressor.md
R162, R167). -/
theorem compressRecord_eq_emitRun {s : State} (hc : s.cur < s.inLen) : compressRecord s =
    emitRun s.nextRun.kind s.nextRun.length (storePayload s.nextRun.kind s.inByte s.cur s.nextRun.length) s := by
  obtain ⟨hpos, -⟩ := s.nextRun_sound.bounds hc
  rw [compressRecord, if_neg (by omega), emitKind_eq]

/-- The emit of any run at CUR: token and payload appended and CUR past the run where a token holds its length, else Overflow
(42_compressor.md R163 to R168). -/
theorem compressor_emits {s : State} {kind : Kind} {n : Nat} (hp : s.phase = .busy .compressor) (hc : s.cur < s.inLen)
    (hr : s.nextRun = ⟨kind, n⟩) :
    (n ≤ kind.maxLen → ∃ token, pack kind n = .ok token ∧ step s = .next { s with
      out := s.out ++ token ++ storePayload kind s.inByte s.cur n,
      outCnt := s.outCnt + token.length + paySize kind n, cur := s.cur + span kind n }) ∧
    (kind.maxLen < n → step s = .next { s with result := .fail .overflow, phase := .done }) := by
  obtain ⟨-, hin⟩ := s.nextRun_sound.bounds hc
  have hstep : step s = emitRun kind n (storePayload kind s.inByte s.cur n) s := by
    simp only [step, hp, compressStep, if_pos hc, compressRecord_eq_emitRun hc, hr]
  rw [hr] at hin
  rw [hstep, ← Nat.not_lt, maxLen_lt, Nat.not_le]
  refine ⟨fun hn => ⟨_, pack_ok kind n hn, ?_⟩, emitRun_overflow kind n _ s⟩
  rw [emitRun_ok kind n _ s hn hin, storePayload_length]

/-- Settles O32: the payload is `MemRead(CUR, n)`. -/
theorem compressorEmitsLit : Obligations.CompressorEmitsLit := by
  intro s n hp hc hr
  obtain ⟨hfits, hover⟩ := compressor_emits hp hc hr
  refine ⟨fun hn => ?_, hover⟩
  obtain ⟨token, hpack, hstep⟩ := hfits hn
  exact ⟨token, _, hpack, hstep, readBytes_length _ _ _, readBytes_getElem? _ _ _⟩

/-- Settles O33: the payload is the byte at CUR. -/
theorem compressorEmitsBrep : Obligations.CompressorEmitsBrep :=
  fun _ _ => compressor_emits (kind := .byteRepeat)

/-- Settles O34: the payload is `MemRead(CUR, 4)`, written out. -/
theorem compressorEmitsWrep : Obligations.CompressorEmitsWrep :=
  fun _ _ => compressor_emits (kind := .wordRepeat)

/-- The bytes of an alpha repeat's payload after its alpha byte (42_compressor.md R166). -/
theorem storeArep_getElem? (rd : Nat → Byte) (c : Nat) {n j i : Nat} (hj : j < n) (hi : i < 3) :
    (storeArep rd c n)[1 + 3 * j + i]? = some (rd (c + 4 * j + 1 + i)) := by
  rw [storeArep, show 1 + 3 * j + i = 3 * j + i + 1 by omega, List.getElem?_cons_succ, triples_getElem? rd c n j i hj hi]

/-- Settles O35: only a sound run with CFG.alpha 1 is an alpha repeat; its payload is the alpha byte and the triples. -/
theorem compressorEmitsArep : Obligations.CompressorEmitsArep := by
  intro s n hp hc hr
  obtain ⟨hfits, hover⟩ := compressor_emits hp hc hr
  refine ⟨?_, fun hn => ?_, hover⟩
  · cases hr ▸ s.nextRun_sound with | alphaRepeat enabled _ _ _ => exact enabled
  · obtain ⟨token, hpack, hstep⟩ := hfits hn
    exact ⟨token, _, hpack, hstep, storePayload_length .alphaRepeat _ _ _, rfl, fun _ _ => storeArep_getElem? _ _⟩

/-! ## The end step -/

/-- Settles O36: with CUR at IN_LEN there is no record left to emit. -/
theorem compressorEnds : Obligations.CompressorEnds := by
  intro s hp hc
  rw [step, hp]
  exact (if_neg hc.not_lt).trans (if_pos hc)

/-! ## No step faults -/

/-- Every row of the table answers a next state. -/
theorem exec_goes_on (i : Instr) (s : State) : ∃ t, exec i s = .next t := by
  obtain ⟨kind, k, n, e, -⟩ | e | ⟨w, -, e⟩ := exec_cases i s
  · rw [e, execRecord]
    split_ifs <;> exact ⟨_, rfl⟩
  · exact ⟨_, e⟩
  · exact ⟨_, e⟩

/-- So does fetch, decode and run at either place: a rejection by the decoder is a failure of the block. -/
theorem fetchExec_goes_on (place : Place) (s : State) : ∃ t, fetchExec place s = .next t := by
  unfold fetchExec
  split
  · exact exec_goes_on _ s
  · exact ⟨_, rfl⟩

/-- A running operation goes on from every state with the invariant: CUR is not beyond IN_LEN, and the run a compressor emits lies
inside IN (42_compressor.md R172, 43_decompressor.md R193). -/
theorem busy_step_goes_on {s : State} {a : Agent} (hi : s.Inv) (hp : s.phase = .busy a) : ∃ t, step s = .next t := by
  obtain hc | hc := (hi.cursor a hp).lt_or_eq
  · cases a with
    | compressor =>
      obtain ⟨hfits, hover⟩ := compressor_emits hp hc rfl
      obtain hn | hn := Nat.lt_or_ge s.nextRun.kind.maxLen s.nextRun.length
      · exact ⟨_, hover hn⟩
      · obtain ⟨token, -, hstep⟩ := hfits hn
        exact ⟨_, hstep⟩
    | decompressor => exact step_fetchExec hp hc ▸ fetchExec_goes_on .record s
  · cases a with
    | compressor => exact ⟨_, compressorEnds s hp hc⟩
    | decompressor =>
      simp only [step, hp, decompressStep, hc, decompressEnd, lt_irrefl, if_true, if_false]
      split_ifs <;> exact ⟨_, rfl⟩

/-- A step of the host goes on or is refused (44_host_interface.md R200, 10_state.md R22, 20_memory.md R67). -/
theorem host_step_goes_on_or_refuses {s : State} (hf : s.free) : (∃ t, step s = .next t) ∨ ∃ r, step s = .refused r := by
  obtain ⟨-, e⟩ | ⟨_, _, -, e⟩ | ⟨_, _, _, -, -, e⟩ | ⟨r, e⟩ | ⟨_, _, -, -, -, e⟩ | ⟨_, _, -, -, -, e⟩ :=
    host_step_cases s hf
  · exact .inl ⟨_, e⟩
  · exact .inl ⟨_, e⟩
  · exact .inl ⟨_, e⟩
  · exact .inr ⟨r, e⟩
  · exact .inl ⟨_, e.trans (compressStart_eq _)⟩
  · exact .inl (e ▸ fetchExec_goes_on .header _)

/-- Settles O53: the host goes on or is refused, and a running operation goes on. -/
theorem stepNeverFaults : Obligations.StepNeverFaults := by
  intro s r hi h
  obtain hf | ⟨a, hp⟩ := phase_cases s
  · obtain ⟨t, e⟩ | ⟨r', e⟩ := host_step_goes_on_or_refuses hf <;> exact nomatch e.symm.trans h
  · obtain ⟨t, e⟩ := busy_step_goes_on hi hp
    exact nomatch e.symm.trans h

end Sys2Proof.Machine
end

section
/-!
The rows of the opcode table, run (43_decompressor.md R181 to R187, R192): what each record row appends or fails with, and the frame
of every row.
-/

namespace Sys2Proof.Machine

/-- Settles O15: the payload is `MemRead(q, n)`. -/
theorem litRecordExecutes : Obligations.LitRecordExecutes := by
  intro s n f hf
  rw [exec_lit s n f hf]
  exact ⟨fun hfit => ⟨_, execRecord_fits .literal f.2 n s hfit, restore_length _ _ _ _, readBytes_getElem? _ _ _⟩,
    execRecord_truncated .literal f.2 n s⟩

/-- Settles O16: the data is `rep` of one byte. -/
theorem brepRecordExecutes : Obligations.BrepRecordExecutes := by
  intro s n f hf
  rw [exec_brep s n f hf]
  refine ⟨fun hfit => ⟨_, execRecord_fits .byteRepeat f.2 n s hfit, restore_length _ _ _ _, fun j hj => ?_⟩,
    execRecord_truncated .byteRepeat f.2 n s⟩
  have hbyte := rep_getElem? [s.inByte (s.cur + f.2)] n j 0 hj Nat.one_pos
  rwa [List.length_singleton, Nat.one_mul] at hbyte

/-- Settles O17: the data is `rep` of `MemRead(q, 4)`. -/
theorem wrepRecordExecutes : Obligations.WrepRecordExecutes := by
  intro s n f hf
  rw [exec_wrep s n f hf]
  refine ⟨fun hfit => ⟨_, execRecord_fits .wordRepeat f.2 n s hfit, restore_length _ _ _ _, fun j i hj hi => ?_⟩,
    execRecord_truncated .wordRepeat f.2 n s⟩
  have hword := rep_getElem? (readBytes s.inByte (s.cur + f.2) 4) n j i hj (by simpa using hi)
  rwa [readBytes_length, readBytes_getElem? _ _ _ _ hi] at hword

/-- Settles O18: the data is the pixels of the alpha byte and the triples after it. -/
theorem arepRecordExecutes : Obligations.ArepRecordExecutes := by
  intro s n f hf
  rw [exec_arep s n f hf, Nat.add_assoc _ 1]
  refine ⟨fun hfit => ⟨_, execRecord_fits .alphaRepeat f.2 n s hfit, restore_length _ _ _ _, fun j hj => ?_⟩,
    execRecord_truncated .alphaRepeat f.2 n s⟩
  obtain ⟨halpha, h1, h2, h3⟩ := pixels_getElem? s.inByte (s.inByte (s.cur + f.2)) (s.cur + f.2 + 1) n j hj
  refine ⟨halpha, h1, h2.trans ?_, h3.trans ?_⟩ <;> congr 2 <;> omega

/-- Settles O20. -/
theorem headerRowExecutes : Obligations.HeaderRowExecutes := fun _ _ => rfl

/-- Everything a row can do: take a failure, append and move CUR on, or load what `HDR` does (R181, R182, R187). -/
theorem exec_next {i : Instr} {s t : State} (h : exec i s = .next t) :
    (∃ k, t = s.raise k) ∨ (∃ v c, t = (s.emit v).setCur c) ∨ ∃ w, i = .hdr w ∧ t = { s with totalLen := w, cur := 8 } := by
  obtain ⟨kind, k, n, e, -⟩ | e | ⟨w, hi, e⟩ := exec_cases i s <;> rw [e] at h
  · obtain rfl | ⟨-, rfl⟩ := execRecord_next h
    · exact .inl ⟨_, rfl⟩
    · exact .inr (.inl ⟨_, _, rfl⟩)
  · cases h; exact .inl ⟨_, rfl⟩
  · cases h; exact .inr (.inr ⟨w, hi, rfl⟩)

/-- Settles O21: what each of the three leaves unchanged. -/
theorem rowFrame : Obligations.RowFrame := by
  intro i s t h
  have hsame : ∃ v, s.out = s.out ++ v ∧ s.outCnt = s.outCnt + v.length := ⟨[], (List.append_nil _).symm, rfl⟩
  obtain ⟨k, rfl⟩ | ⟨v, c, rfl⟩ | ⟨w, rfl, rfl⟩ := exec_next h
  · exact ⟨rfl, fun _ => rfl, rfl, rfl, rfl, rfl, rfl, hsame, fun _ => rfl, .inr ⟨rfl, ⟨k, rfl⟩, rfl, rfl, rfl⟩⟩
  · exact ⟨rfl, fun _ => rfl, rfl, rfl, rfl, rfl, rfl, ⟨v, rfl, rfl⟩, fun _ => rfl, .inl ⟨rfl, rfl⟩⟩
  · exact ⟨rfl, fun _ => rfl, rfl, rfl, rfl, rfl, rfl, hsame, fun hno => absurd rfl (hno w), .inl ⟨rfl, rfl⟩⟩

/-- A record of length 0 that fits appends nothing and takes its payload (R192). -/
theorem execRecord_zero (kind : Kind) (k : Nat) (s : State) (h : s.cur + k + paySize kind 0 ≤ s.inLen) :
    execRecord kind k 0 s = .next { s with cur := s.cur + k + paySize kind 0 } := by
  have hnil : restore kind s.inByte (s.cur + k) 0 = [] := by cases kind <;> rfl
  have hspan : span kind 0 = 0 := by cases kind <;> rfl
  rw [execRecord_fits kind k 0 s h, hnil, hspan, List.append_nil, Nat.add_zero]

/-- Settles O22, kind by kind. -/
theorem zeroLengthRecords : Obligations.ZeroLengthRecords :=
  fun s f => ⟨fun hf h => (exec_lit s 0 f hf).trans (execRecord_zero .literal f.2 s h),
    fun hf h => (exec_brep s 0 f hf).trans (execRecord_zero .byteRepeat f.2 s h),
    fun hf h => (exec_wrep s 0 f hf).trans (execRecord_zero .wordRepeat f.2 s h),
    fun hf h => (exec_arep s 0 f hf).trans (execRecord_zero .alphaRepeat f.2 s h)⟩

end Sys2Proof.Machine
end

section
/-!
The decompressor's start, record and end steps (43_decompressor.md R181, R182, R188, R189), and that TOTAL_LEN is not read before
the end (R191).
-/

namespace Sys2Proof.Machine

/-! ## The start step -/

/-- A `decompress` call that is accepted takes its start step (44_host_interface.md R204). -/
theorem step_decompress {s : State} {l : Launch} {rest : List HostCall} (hf : s.free) (hc : s.calls = .decompress l :: rest)
    (ho : l.overlaps = false) (hl : l.input.length < 2 ^ 32) :
    step s = decompressStart (({ s with calls := rest } : State).setInput l.input) := by
  rw [step_call hf hc, hostCall, launchWith_accepted hl ho]

/-- Settles O14: the call is accepted and its start step decodes the header. -/
theorem stepRunsHeader : Obligations.StepRunsHeader := by
  intro s l rest i hf hc ho hl hd
  have hd' : decodeHeader (l.input.take 8) = .ok i := hd
  rw [step_decompress hf hc ho hl, decompressStart_eq, hd']
  rfl

/-- The header decoder reads at most 8 bytes (R181). -/
theorem decodeHeader_take_eight (buf : List Byte) : decodeHeader (buf.take 8) = decodeHeader buf := by
  obtain ⟨hshort, -⟩ | ⟨_, _, _, _, _, _, _, _, _, rfl, -⟩ := decodeHeader_cases buf
  · rw [List.take_of_length_le (Nat.le_of_lt hshort)]
  · rfl

/-- A byte of a loaded buffer is read at its index (10_state.md R22). -/
theorem read_load_of_getElem? {buf : List Byte} {a : Nat} {b : Byte} (h : buf[a]? = some b) :
    Memory.read (Memory.load 0 buf) a = b := by
  obtain ⟨ha, -⟩ := List.getElem?_eq_some_iff.mp h
  exact Option.some_inj.mp ((loadedBufferReadsBack buf a ha).trans h)

/-- Settles O37, by what the header decoder answers: the two failures, or the little-endian value of bytes 4 to 7. -/
theorem decompressStartChecksHeader : Obligations.DecompressStartChecksHeader := by
  intro s l rest hf hc ho hl
  rw [step_decompress hf hc ho hl, decompressStart_eq, decodeHeader_take_eight]
  have hread := loadedBufferReadsBack l.input
  obtain ⟨hshort, e⟩ | ⟨m0, m1, m2, m3, t0, t1, t2, t3, tl, hb, ⟨hm, e⟩ | ⟨hm, e⟩⟩ := decodeHeader_cases l.input <;> rw [e]
  · exact ⟨_, rfl, rfl, rfl, rfl, hread, rfl, rfl, rfl, fun _ => ⟨rfl, rfl⟩, by omega, by omega⟩
  · have hlong : 8 ≤ l.input.length := by simp [hb]
    have hmagic : l.input.take 4 ≠ magic := by simpa [hb] using hm
    exact ⟨_, rfl, rfl, rfl, rfl, hread, rfl, rfl, rfl, by omega, fun _ _ => ⟨rfl, rfl⟩, fun _ h => absurd h hmagic⟩
  · have hlong : 8 ≤ l.input.length := by simp [hb]
    have hmagic : l.input.take 4 = magic := by simpa [hb] using hm
    have h4 : l.input[4]? = some t0 := by rw [hb]; rfl
    have h5 : l.input[5]? = some t1 := by rw [hb]; rfl
    have h6 : l.input[6]? = some t2 := by rw [hb]; rfl
    have h7 : l.input[7]? = some t3 := by rw [hb]; rfl
    refine ⟨_, rfl, rfl, rfl, rfl, hread, rfl, rfl, rfl, by omega, fun _ h => absurd hmagic h, fun _ _ => ⟨rfl, rfl, ?_⟩⟩
    simp only [State.inByte, State.begin_inp, State.setInput_inp, read_load_of_getElem? h4,
      read_load_of_getElem? h5, read_load_of_getElem? h6, read_load_of_getElem? h7]
    exact Nat.mod_eq_of_lt (by simp only [le32]; omega)

/-! ## The record step -/

/-- Settles O12: the step fetches the record, and runs what it decodes to. -/
theorem stepRunsRecord : Obligations.StepRunsRecord := by
  intro s i hp hc hd
  have hfetch : decode .record (s.fetch .record) = .ok i := hd
  simp only [step_fetchExec hp hc, fetchExec, hfetch]

/-- `s` with another declared length (10_state.md R25). -/
def State.withTotalLen (w : Word32) (s : State) : State := { s with totalLen := w }

/-- The record step reads nothing of TOTAL_LEN. -/
theorem execRecord_withTotalLen (w : Word32) (kind : Kind) (k n : Nat) (s : State) :
    execRecord kind k n (s.withTotalLen w) = mapNext (State.withTotalLen w) (execRecord kind k n s) := by
  rw [execRecord, execRecord, mapNext_ite]; rfl

/-- Nor does any row a record decodes to: `HDR`, which writes TOTAL_LEN, is none of them (30_encoding.md R97). -/
theorem exec_decoded_withTotalLen {bytes : List Byte} {i : Instr} (h : decode .record bytes = .ok i) (w : Word32) (s : State) :
    exec i (s.withTotalLen w) = mapNext (State.withTotalLen w) (exec i s) := by
  obtain ⟨t, ht, rfl⟩ | ⟨b, rfl⟩ | ⟨b0, b1, b2, b3, rfl⟩ := decodeRecord_ok h
  · obtain ⟨hlo, hhi, -⟩ := unpack_ok ht
    rw [exec_ofToken hlo hhi, exec_ofToken hlo hhi, execRecord_withTotalLen]
  · rfl
  · rfl

/-- Settles O41, by the fetch and the row it runs. -/
theorem totalUnreadBeforeEnd : Obligations.TotalUnreadBeforeEnd := by
  intro s w hp hc
  change step (s.withTotalLen w) = mapNext (State.withTotalLen w) (step s)
  have hfetch : (s.withTotalLen w).fetch .record = s.fetch .record := rfl
  rw [step_fetchExec hp hc, step_fetchExec (s := s.withTotalLen w) hp hc, fetchExec, fetchExec, hfetch]
  cases hd : decode .record (s.fetch .record) with
  | ok i => exact exec_decoded_withTotalLen hd w s
  | error e => rfl

/-! ## The end step -/

/-- A running decompressor at the end of IN takes its end step (43_decompressor.md R193). -/
theorem step_decompressEnd {s : State} (hp : s.phase = .busy .decompressor) (hc : s.cur = s.inLen) : step s = decompressEnd s := by
  simp only [step, hp, decompressStep, if_neg hc.not_lt, if_pos hc]

/-- Settles O38. -/
theorem decompressorEnds : Obligations.DecompressorEnds :=
  fun _ hp hc => ⟨fun h => (step_decompressEnd hp hc).trans (if_pos h), fun h => (step_decompressEnd hp hc).trans (if_neg h)⟩

/-- Settles O39: a step that ends with success is the end step, whose comparison it passed. -/
theorem decompressSuccessMatchesTotal : Obligations.DecompressSuccessMatchesTotal := by
  intro s t c hi hp h hdone hres
  obtain ⟨k, rfl⟩ | ⟨hc, rfl⟩ | ⟨v, n, rfl, -⟩ := busy_step_next hp h
  · cases hres
  · obtain ⟨hok, hbad⟩ := decompressorEnds s hp hc
    by_cases htotal : s.outCnt = s.totalLen.toNat
    · cases hres
      exact ⟨htotal, hi.count, hc⟩
    · exact nomatch h.symm.trans (hbad htotal)
  · exact nomatch hp.symm.trans hdone

end Sys2Proof.Machine
end

section
/-!
The round trip (43_decompressor.md R190). A record restores the run its payload was stored from; so, step by step of the compressor,
a decompressor launched on any container that begins with the bytes written so far restores the input consumed so far.
-/

namespace Sys2Proof.Machine

/-! ## A stored run is restored -/

/-- `MemRead` in two parts. -/
theorem readBytes_add (rd : Nat → Byte) (a m n : Nat) : readBytes rd a (m + n) = readBytes rd a m ++ readBytes rd (a + m) n := by
  induction m generalizing a with
  | zero => simp [readBytes]
  | succ m ih => rw [Nat.succ_add, readBytes, readBytes, ih, List.cons_append, Nat.add_assoc, Nat.add_comm 1 m]

/-- Bytes that are `n` copies of `v` are read as `rep(v, n)`. -/
theorem readBytes_eq_rep {rd : Nat → Byte} {v : List Byte} {c m n : Nat} (h : ∀ j, j < n → readBytes rd (c + m * j) m = v) :
    readBytes rd c (m * n) = rep v n := by
  induction n generalizing c with
  | zero => rfl
  | succ n ih =>
    have hrest : readBytes rd (c + m) (m * n) = rep v n := ih fun j hj => by
      rw [Nat.add_assoc, Nat.add_comm m, ← Nat.mul_succ]
      exact h (j + 1) (Nat.succ_lt_succ hj)
    rw [Nat.mul_succ, Nat.add_comm, readBytes_add, hrest, rep]
    exact congrArg (· ++ rep v n) (h 0 n.succ_pos)

/-- Equal bytes are read as equal lists. -/
theorem readBytes_eq_readBytes {rd : Nat → Byte} {a b n : Nat} (h : ∀ i, i < n → rd (a + i) = rd (b + i)) :
    readBytes rd a n = readBytes rd b n := by
  apply List.ext_getElem?
  intro i
  obtain hi | hi := Nat.lt_or_ge i n
  · rw [readBytes_getElem? _ _ _ _ hi, readBytes_getElem? _ _ _ _ hi, h i hi]
  · rw [List.getElem?_eq_none (by simpa using hi), List.getElem?_eq_none (by simpa using hi)]

/-- Pixels that share the alpha byte `a` are restored from their triples (R186, 42_compressor.md R166). -/
theorem pixels_of_triples {rd rd' : Nat → Byte} {a : Byte} {c p n : Nat} (hstored : readBytes rd' p (3 * n) = triples rd c n)
    (halpha : ∀ j, j < n → rd (c + 4 * j) = a) : pixels rd' a p n = readBytes rd c (4 * n) := by
  induction n generalizing c p with
  | zero => rfl
  | succ n ih =>
    have hfirst : rd c = a := halpha 0 n.succ_pos
    simp only [Nat.mul_succ, readBytes, triples, List.cons.injEq] at hstored
    obtain ⟨h1, h2, h3, hrest⟩ := hstored
    have hpixels : pixels rd' a (p + 3) n = readBytes rd (c + 4) (4 * n) :=
      ih hrest fun j hj => by rw [Nat.add_right_comm]; exact halpha (j + 1) (Nat.succ_lt_succ hj)
    simp only [pixels, Nat.mul_succ, readBytes, hpixels, hfirst, h1, h2, h3]

/-- A sound run's payload, read where a record finds it, restores the run's bytes (41_run_classifier.md R140). -/
theorem restore_stored {rd rd' : Nat → Byte} {len c q n : Nat} {alpha : Bool} {kind : Kind}
    (hs : SoundRun rd len c alpha ⟨kind, n⟩) (hv : readBytes rd' q (paySize kind n) = storePayload kind rd c n) :
    restore kind rd' q n = readBytes rd c (span kind n) := by
  cases hs with
  | literal => exact hv
  | byteRepeat _ _ equal =>
    have hbyte : readBytes rd' q 1 = [rd c] := hv
    have hcopies : readBytes rd c (1 * n) = rep [rd c] n := readBytes_eq_rep fun j hj => by
      rw [Nat.one_mul, readBytes, equal j hj, readBytes]
    rw [restore, restoreBrep, (List.cons.inj hbyte).1, ← hcopies, Nat.one_mul, span]
  | wordRepeat _ _ equal =>
    have hword : readBytes rd' q 4 = readBytes rd c 4 := hv
    rw [restore, restoreWrep, hword, span]
    exact (readBytes_eq_rep fun j hj => readBytes_eq_readBytes fun i hi => equal j i hj hi).symm
  | alphaRepeat _ _ _ equal =>
    rw [paySize, Nat.add_comm] at hv
    obtain ⟨halpha, hstored⟩ := List.cons.inj hv
    exact pixels_of_triples hstored fun j hj => (equal j hj).trans halpha.symm

/-! ## One record of a container -/

/-- A token's form of `k` bytes (R89). -/
theorem tokenBytes_length_of_pos {kind : Kind} {k n : Nat} (h : 1 ≤ k) : (tokenBytes kind k n).length = k := by
  rw [tokenBytes_length, Nat.sub_add_cancel h]

/-- A part of a loaded buffer is read at its place. -/
theorem readBytes_load_middle (pre v tl : List Byte) :
    readBytes (Memory.read (Memory.load 0 (pre ++ v ++ tl))) pre.length v.length = v := by
  rw [readBytes_load _ _ _ (by simp), List.append_assoc, List.drop_left, List.take_left]

/-- With a buffer loaded as IN, `IN[a]` is read from it. -/
theorem inByte_of_load {u : State} {C : List Byte} (hinp : u.inp = Memory.load 0 C) :
    u.inByte = Memory.read (Memory.load 0 C) := by
  rw [← hinp]; rfl

/-- The bytes fetched from a container (40_token_codec.md R111). -/
theorem window_of_load {u : State} {C : List Byte} (hinp : u.inp = Memory.load 0 C) (hlen : u.inLen = C.length) {a : Nat}
    (ha : a ≤ C.length) (n : Nat) : u.window a n = (C.drop a).take n := by
  rw [State.window, inByte_of_load hinp, hlen, readBytes_load C a _ (by omega), List.take_eq_take_iff, List.length_drop]
  omega

/-- A running decompressor at a record of its container restores from the record's payload (43_decompressor.md R182). -/
theorem step_record {u : State} {pre v tl : List Byte} {kind : Kind} {k n : Nat} (hp : u.phase = .busy .decompressor)
    (hinp : u.inp = Memory.load 0 (pre ++ tokenBytes kind k n ++ v ++ tl))
    (hlen : u.inLen = (pre ++ tokenBytes kind k n ++ v ++ tl).length) (hcur : u.cur = pre.length)
    (hlo : 1 ≤ k) (hhi : k ≤ 4) (hn : n < 2 ^ (kind.firstBits + 7 * (k - 1))) (hv : v.length = paySize kind n) :
    step u = .next { u with
      out := u.out ++ restore kind u.inByte (u.cur + k) n, outCnt := u.outCnt + span kind n,
      cur := u.cur + k + paySize kind n } := by
  have hend : u.cur + k + paySize kind n ≤ u.inLen := by
    simp only [hlen, hcur, List.length_append, tokenBytes_length_of_pos hlo, hv]
    omega
  have hdecode : decode .record (u.window u.cur 4) = .ok (.ofToken ⟨kind, n, k⟩) := by
    rw [window_of_load hinp hlen (by omega)]
    apply decodeRecord_token
    rw [unpack_take_four, hcur, List.append_assoc, List.append_assoc, List.drop_left, unpack_tokenBytes kind _ hlo hhi hn]
  rw [stepRunsRecord u _ hp (by omega) hdecode, exec_ofToken hlo hhi, execRecord_fits kind k n u hend]

/-! ## A decompressor that follows the compressor -/

/-- A decompressor running on the container `C` of the buffer `B` stands at `p` and has restored the first `c` bytes. -/
structure Restoring (B C : List Byte) (p c : Nat) (u : State) : Prop where
  phase : u.phase = .busy .decompressor
  calls : u.calls = []
  inp : u.inp = Memory.load 0 C
  inLen : u.inLen = C.length
  cur : u.cur = p
  out : u.out = B.take c
  outCnt : u.outCnt = c
  totalLen : u.totalLen.toNat = B.length

/-- However the container goes on after the bytes `o`, a launch of `decompress` on it comes to their end with the first `c` bytes of
`B` restored. -/
def Restores (B o : List Byte) (c : Nat) : Prop :=
  ∀ (tl : List Byte) (s : State), (o ++ tl).length < 2 ^ 32 → s.free → s.calls = [.decompress ⟨o ++ tl, false⟩] →
    ∃ k u, Sys2Proof.core.run k s = .next u ∧ Restoring B (o ++ tl) o.length c u

/-- A run of one step more. -/
theorem run_succ_of_run {k : Nat} {s t u : State} (h : Sys2Proof.core.run k s = .next t) (hs : step t = .next u) :
    Sys2Proof.core.run (k + 1) s = .next u :=
  (core_run_trans Sys2Proof.core k 1 s t h).trans (run_succ_next 0 hs)

/-- The header restores nothing yet (43_decompressor.md R181). -/
theorem restores_header {B : List Byte} (hB : B.length < 2 ^ 32) : Restores B (magic ++ leBytes B.length) 0 := by
  intro tl s hlen hf hc
  have hw : (BitVec.ofNat 32 B.length).toNat = B.length := Nat.mod_eq_of_lt hB
  have hd : decode .header ((magic ++ leBytes B.length ++ tl).take 8) = .ok (.hdr (BitVec.ofNat 32 B.length)) := by
    have h := decodeOfEncode (.hdr (BitVec.ofNat 32 B.length)) [] rfl
    rw [List.append_nil, encode, encodeHeader, hw] at h
    rwa [List.take_left' (show (magic ++ leBytes B.length).length = 8 from rfl)]
  exact ⟨1, _, run_succ_next 0 (stepRunsHeader s _ [] _ hf hc rfl hlen hd), rfl, rfl, rfl, rfl, rfl, rfl, rfl, hw⟩

/-- A record whose payload `v` restores the next bytes of `B`, in any of its token's forms. -/
theorem Restores.append_record {B o v : List Byte} {c k n : Nat} {kind : Kind} (h : Restores B o c) (hlo : 1 ≤ k) (hhi : k ≤ 4)
    (hn : n < 2 ^ (kind.firstBits + 7 * (k - 1))) (hlen : v.length = paySize kind n)
    (hv : ∀ rd q, readBytes rd q v.length = v → restore kind rd q n = (B.drop c).take (span kind n)) :
    Restores B (o ++ tokenBytes kind k n ++ v) (c + span kind n) := by
  intro tl s hC hf hc
  have hassoc : o ++ (tokenBytes kind k n ++ v ++ tl) = o ++ tokenBytes kind k n ++ v ++ tl := by simp only [List.append_assoc]
  obtain ⟨steps, u, hrun, hu⟩ := h (tokenBytes kind k n ++ v ++ tl) s (hassoc ▸ hC) hf (hassoc ▸ hc)
  rw [hassoc] at hu
  have hstep := step_record hu.phase hu.inp hu.inLen hu.cur hlo hhi hn hlen
  have hq : (o ++ tokenBytes kind k n).length = u.cur + k := by rw [List.length_append, hu.cur, tokenBytes_length_of_pos hlo]
  have hpayload : readBytes u.inByte (u.cur + k) v.length = v := by
    rw [inByte_of_load hu.inp, ← hq, readBytes_load_middle]
  rw [hv _ _ hpayload] at hstep
  refine ⟨steps + 1, _, run_succ_of_run hrun hstep, hu.phase, hu.calls, hu.inp, hu.inLen, ?_, ?_, ?_, hu.totalLen⟩
  · rw [List.length_append, hq, hlen]
  · rw [List.take_add, ← hu.out]
  · exact congrArg (· + span kind n) hu.outCnt

/-- What the compressor emits for a sound run of `B` restores the run's bytes. -/
theorem Restores.emit {B o : List Byte} {c n : Nat} {alpha : Bool} {kind : Kind} (h : Restores B o c)
    (hs : SoundRun (Memory.read (Memory.load 0 B)) B.length c alpha ⟨kind, n⟩) (hin : c + span kind n ≤ B.length)
    (hn : n < 2 ^ (kind.firstBits + 21)) :
    Restores B (o ++ tokenBytes kind (ntok kind n) n ++ storePayload kind (Memory.read (Memory.load 0 B)) c n)
      (c + span kind n) := by
  obtain ⟨hpos, hbits, -⟩ := ntok_least kind hn
  have hlen := storePayload_length kind (Memory.read (Memory.load 0 B)) c n
  refine h.append_record hpos (ntok_le_four kind n) hbits hlen fun rd q hv => ?_
  rw [restore_stored hs (hlen ▸ hv), readBytes_load B c _ hin]

/-- At the container's end the whole of `B` is restored, and its length is the one declared (R188). -/
theorem Restores.ends {B o : List Byte} (h : Restores B o B.length) (hlen : o.length < 2 ^ 32) {s : State} (hf : s.free)
    (hc : s.calls = [.decompress ⟨o, false⟩]) : ∃ u, RunsTo s u ∧ u.result = .ok B.length ∧ u.out = B := by
  obtain ⟨k, u, hrun, hu⟩ := h [] s (by simpa using hlen) hf (by simpa using hc)
  obtain ⟨hok, -⟩ := decompressorEnds u hu.phase (by rw [hu.cur, hu.inLen, List.append_nil])
  have hstep := hok (hu.outCnt.trans hu.totalLen.symm)
  refine ⟨_, ⟨k + 1, run_succ_of_run hrun hstep, rfl, hu.calls⟩, congrArg _ hu.outCnt, ?_⟩
  exact hu.out.trans List.take_length

/-! ## The compressor's run -/

/-- What a compressor launched on `B` keeps up to its end: the bytes written restore the bytes consumed, and a successful end has
consumed all of `B`. -/
structure Compressing (B : List Byte) (s : State) : Prop where
  inv : s.Inv
  calls : s.calls = []
  inp : s.inp = Memory.load 0 B
  inLen : s.inLen = B.length
  restores : Restores B s.out s.cur
  phase : s.phase = .busy .compressor ∨ s.phase = .done ∧ ∀ c, s.result = .ok c → s.cur = B.length

/-- A property every step keeps holds at the end of a run. -/
theorem run_keeps {P : State → Prop} (hstep : ∀ s t, P s → step s = .next t → P t) {k : Nat} {s t : State} (hs : P s)
    (h : Sys2Proof.core.run k s = .next t) : P t := by
  induction k generalizing s with
  | zero => cases h; exact hs
  | succ k ih =>
    cases e : step s with
    | next u => rw [run_succ_next k e] at h; exact ih (hstep s u hs e) h
    | fault r => rw [run_succ_stop k e (by simp)] at h; cases h
    | refused r => rw [run_succ_stop k e (by simp)] at h; cases h

/-- The compressor's record step keeps it (42_compressor.md R162 to R168). -/
theorem Compressing.record {B : List Byte} {s t : State} (h : Compressing B s) (hp : s.phase = .busy .compressor)
    (hc : s.cur < s.inLen) (hst : step s = .next t) : Compressing B t := by
  have hinv := stepKeepsInv _ _ h.inv hst
  obtain ⟨⟨kind, n⟩, hrun⟩ : ∃ r, s.nextRun = r := ⟨_, rfl⟩
  have hsound := hrun ▸ s.nextRun_sound
  obtain ⟨-, hin⟩ := hsound.bounds hc
  obtain ⟨hfits, hover⟩ := compressor_emits hp hc hrun
  rw [inByte_of_load h.inp] at hfits hsound
  rw [h.inLen] at hin hsound
  obtain hn | hn := Nat.lt_or_ge kind.maxLen n
  · obtain rfl := Host.Outcome.next.inj ((hover hn).symm.trans hst)
    exact ⟨hinv, h.calls, h.inp, h.inLen, h.restores, .inr ⟨rfl, nofun⟩⟩
  · obtain ⟨token, hpack, e⟩ := hfits hn
    have hbits : n < 2 ^ (kind.firstBits + 21) := by
      rw [← Nat.not_le, ← maxLen_lt]; exact Nat.not_lt.mpr hn
    obtain rfl := Except.ok.inj ((pack_ok kind n hbits).symm.trans hpack)
    obtain rfl := Host.Outcome.next.inj (e.symm.trans hst)
    exact ⟨hinv, h.calls, h.inp, h.inLen, h.restores.emit hsound hin hbits, .inl hp⟩

/-- Every step keeps it. -/
theorem Compressing.step {B : List Byte} {s t : State} (h : Compressing B s) (hst : step s = .next t) : Compressing B t := by
  obtain hp | ⟨hd, -⟩ := h.phase
  · obtain hc | hc := (h.inv.cursor _ hp).lt_or_eq
    · exact h.record hp hc hst
    · obtain rfl := Host.Outcome.next.inj ((compressorEnds s hp hc).symm.trans hst)
      exact ⟨stepKeepsInv _ _ h.inv hst, h.calls, h.inp, h.inLen, h.restores, .inr ⟨rfl, fun _ _ => hc.trans h.inLen⟩⟩
  · obtain rfl := Host.Outcome.next.inj ((step_no_calls (.inr hd) h.calls).symm.trans hst)
    exact h

/-- A `compress` call begins it with the header (42_compressor.md R161). -/
theorem compress_call_compressing {B : List Byte} {s : State} (hf : s.free) (hc : s.calls = [.compress ⟨B, false⟩])
    (hB : B.length < 2 ^ 32) : ∃ t, step s = .next t ∧ Compressing B t := by
  have hstep : step s = compressStart (({ s with calls := [] } : State).setInput B) := by
    rw [step_call hf hc, hostCall, launchWith_accepted hB rfl]
  have hstart := compressStart_eq (({ s with calls := [] } : State).setInput B)
  obtain ⟨hinv, -⟩ := compressStart_establishes hB hstart
  exact ⟨_, hstep.trans hstart, hinv, rfl, rfl, rfl, restores_header hB, .inl rfl⟩

/-- Settles O60: a compressor that succeeds has consumed all of `B`, so what it wrote restores all of `B`. -/
theorem roundTrip : Obligations.RoundTrip := by
  rintro s t s' B c hf hc hB ⟨k, hrun, hdone, hcalls⟩ hres hC hf' hc'
  have ht : Compressing B t := by
    cases k with
    | zero => cases hrun; rw [hc] at hcalls; cases hcalls
    | succ k =>
      obtain ⟨u, hstep, hu⟩ := compress_call_compressing hf hc hB
      rw [run_succ_next k hstep] at hrun
      exact run_keeps (fun _ _ => Compressing.step) hu hrun
  obtain hp | ⟨-, hend⟩ := ht.phase
  · exact nomatch hp.symm.trans hdone
  · have hrestores : Restores B t.out B.length := hend c hres ▸ ht.restores
    exact ⟨(ht.inv.result hdone c hres).trans ht.inv.count, hrestores.ends hC hf' hc'⟩

end Sys2Proof.Machine
end

section
/-!
The host's side: the two queries (44_host_interface.md R201, R202) and the integer the host sees for a result (R205).
-/

namespace Sys2Proof.Machine

/-! ## The queries -/

/-- Bytes that do not fill the header have no first field (R201). -/
theorem headerReply_of_short {buf : List Byte} (h : buf.length < 8) : headerReply buf = .fail .lengthError := by
  unfold headerReply
  split
  · simp only [List.length_cons] at h; omega
  · rfl

/-- Where four bytes more follow, the first four are the answer (R201). -/
theorem headerReply_cons_four (m0 m1 m2 m3 : Byte) {tl : List Byte} (h : 4 ≤ tl.length) :
    headerReply (m0 :: m1 :: m2 :: m3 :: tl) = .value (le32 m0 m1 m2 m3) :=
  match tl, h with
  | _ :: _ :: _ :: _ :: _, _ => rfl

/-- Bytes that do not fill the header declare no length (R202). -/
theorem declaredLengthReply_of_short {buf : List Byte} (h : buf.length < 8) : declaredLengthReply buf = .fail .lengthError := by
  unfold declaredLengthReply
  split
  · simp only [List.length_cons] at h; omega
  · rfl

/-- A buffer every entry point takes (10_state.md R22). -/
theorem withBuffer_fits {buffer : List Byte} (h : buffer.length < 2 ^ 32) (act : Outcome) : withBuffer buffer act = act := if_pos h

/-- A `header` call only takes itself off the host's list and answers. -/
theorem step_header {s : State} {buf : List Byte} {rest : List HostCall} (hf : s.free) (hc : s.calls = .header buf :: rest)
    (hl : buf.length < 2 ^ 32) : step s = .next (({ s with calls := rest } : State).answer (headerReply buf)) :=
  (step_call hf hc).trans (withBuffer_fits hl _)

/-- A `declared_length` call only takes itself off the host's list and answers. -/
theorem step_declaredLength {s : State} {buf : List Byte} {rest : List HostCall} (hf : s.free)
    (hc : s.calls = .declaredLength buf :: rest) (hl : buf.length < 2 ^ 32) :
    step s = .next (({ s with calls := rest } : State).answer (declaredLengthReply buf)) :=
  (step_call hf hc).trans (withBuffer_fits hl _)

/-- Settles O42: each query's step, with its reply on fewer than 8 bytes and on 8 or more. -/
theorem queriesAnswer : Obligations.QueriesAnswer := by
  intro s buf rest hf hl
  refine ⟨fun hc => ⟨_, step_header hf hc hl, headerReply_of_short, ?_⟩,
    fun hc => ⟨_, step_declaredLength hf hc hl, declaredLengthReply_of_short, ?_⟩⟩
  · rintro m0 m1 m2 m3 tl rfl h8
    simp only [List.length_cons] at h8
    exact headerReply_cons_four m0 m1 m2 m3 (by omega)
  · rintro m0 m1 m2 m3 t0 t1 t2 t3 tl rfl
    rfl

/-! ## The result as an integer -/

/-- A success is not negative, whatever ERR_CODE is. -/
theorem hostInt_ok_nonneg (e : Config.ErrCode) (c : Nat) : 0 ≤ Config.hostInt e (.ok c) := Int.natCast_nonneg c

/-- A failure is negative (60_exceptions.md R235). -/
theorem hostInt_fail_neg (e : Config.ErrCode) (k : Failure) : Config.hostInt e (.fail k) < 0 := e.negative k

/-- The sign tells a success from a failure, and within each the integer tells which. -/
theorem hostInt_injective (e : Config.ErrCode) : Function.Injective (Config.hostInt e) := by
  rintro (c | k) (d | l) h
  · exact congrArg Result.ok (Int.ofNat.inj h)
  · exact absurd (h ▸ hostInt_ok_nonneg e c) (Int.not_le.mpr (hostInt_fail_neg e l))
  · exact absurd (h ▸ hostInt_fail_neg e k) (Int.not_lt.mpr (hostInt_ok_nonneg e d))
  · exact congrArg Result.fail (e.injective k l h)

/-- Settles O47: the two signs and the injectivity of the integer. -/
theorem hostIntegerConvention : Obligations.HostIntegerConvention := by
  intro e r q
  refine ⟨?_, ?_, fun h => hostInt_injective e h⟩
  · rintro c rfl
    exact ⟨rfl, hostInt_ok_nonneg e c⟩
  · rintro k rfl
    exact hostInt_fail_neg e k

end Sys2Proof.Machine
end

section
/-!
The failures (60_exceptions.md R221 to R228): when `unpack` fails, and which failures a running agent's step can end in.
-/

namespace Sys2Proof

/-! ## When `unpack` fails -/

/-- The loop of `unpack` fails exactly when every byte it may read announces another (40_token_codec.md R111). -/
theorem unpackRest_fails_iff (kind : Kind) (more len k : Nat) (b : Byte) (rest : List Byte) :
    (∃ e, unpackRest kind more len k b rest = .error e) ↔ ∀ c ∈ b :: rest.take more, isExtended c = true := by
  refine ⟨fun ⟨_, h⟩ => (unpackRest_error h).2, fun hall => ?_⟩
  fun_induction unpackRest kind more len k b rest with
  | case1 | case2 => exact ⟨_, rfl⟩
  | case3 len k b hb more c cs ih =>
    rw [List.take_succ_cons, List.forall_mem_cons] at hall
    exact ih hall.2
  | case4 more len k b rest hb => exact absurd (hall b List.mem_cons_self) hb

/-- `unpack` fails on a reserved first byte, and where its first four bytes, or all of fewer, announce another (R111). -/
theorem unpack_fails_iff (b : Byte) (rest : List Byte) :
    (∃ e, unpack (b :: rest) = .error e) ↔ isReserved b = true ∨ ∀ c ∈ b :: rest.take 3, isExtended c = true := by
  cases hr : isReserved b with
  | true => exact iff_of_true ⟨_, unpack_reserved b rest hr⟩ (.inl rfl)
  | false => rw [unpack_first b rest hr, unpackRest_fails_iff]; simp

/-- What holds of the first four bytes holds of four that are there, or of all of fewer. -/
theorem forall_mem_take_four_iff (p : Byte → Prop) (b : Byte) (rest : List Byte) :
    (∀ c ∈ b :: rest.take 3, p c) ↔
      (∃ b1 b2 b3 tl, rest = b1 :: b2 :: b3 :: tl ∧ p b ∧ p b1 ∧ p b2 ∧ p b3) ∨
      (rest.length < 3 ∧ ∀ c ∈ b :: rest, p c) := by
  match rest with
  | b1 :: b2 :: b3 :: tl => simp
  | [] | [_] | [_, _] => simp

/-- Settles O8: a reserved first byte is told by its bits 6, 5, 4, and a byte that announces another by its bit 7. -/
theorem malformedTokenExactly : Obligations.MalformedTokenExactly := by
  intro b rest
  simp only [unpack_fails_iff, isReserved_iff, isExtended_eq_msb, forall_mem_take_four_iff]

end Sys2Proof

namespace Sys2Proof.Machine

/-! ## Which failures a running agent can take -/

/-- A compressor's step ends in Overflow, succeeds, or leaves the operation running: the run at CUR is not empty, so that Unknown
is not raised (42_compressor.md R167, R168). -/
theorem compressor_step_next {s t : State} (hp : s.phase = .busy .compressor) (h : step s = .next t) :
    t = s.raise .overflow ∨ t = s.succeed ∨ t.phase = .busy .compressor := by
  simp only [step, hp, compressStep] at h
  split_ifs at h with hlt heq
  · rw [compressRecord_eq_emitRun hlt] at h
    obtain rfl | ⟨-, rfl⟩ := emitRun_next h
    · exact .inl rfl
    · exact .inr (.inr hp)
  · cases h; exact .inr (.inl rfl)

/-- A record of the decompressor is malformed, is truncated, or leaves PHASE alone (43_decompressor.md R182, R187). -/
theorem fetchExec_record_next {s t : State} (h : fetchExec .record s = .next t) :
    t = s.raise .malformedToken ∨ t = s.raise .truncatedRecord ∨ t.phase = s.phase := by
  unfold fetchExec at h
  split at h
  next i hd =>
    obtain ⟨kind, k, n, e, -⟩ | e := exec_decoded_record hd s <;> rw [e] at h
    · obtain rfl | ⟨-, rfl⟩ := execRecord_next h
      · exact .inr (.inl rfl)
      · exact .inr (.inr rfl)
    · cases h; exact .inl rfl
  next e hd =>
    obtain rfl := decode_record_error _ _ hd
    cases h; exact .inl rfl

/-- A decompressor's step ends in one of three failures, LengthMismatch only at the end of IN, succeeds, or leaves the operation
running (43_decompressor.md R182, R188). -/
theorem decompressor_step_next {s t : State} (hp : s.phase = .busy .decompressor) (h : step s = .next t) :
    t = s.raise .malformedToken ∨ t = s.raise .truncatedRecord ∨ (t = s.raise .lengthMismatch ∧ s.cur = s.inLen) ∨
    t = s.succeed ∨ t.phase = .busy .decompressor := by
  simp only [step, hp, decompressStep, decompressEnd] at h
  split_ifs at h with hlt heq
  · obtain rfl | rfl | hrun := fetchExec_record_next h
    · exact .inl rfl
    · exact .inr (.inl rfl)
    · exact .inr (.inr (.inr (.inr (hrun.trans hp))))
  · cases h; exact .inr (.inr (.inr (.inl rfl)))
  · cases h; exact .inr (.inr (.inl ⟨rfl, heq⟩))

/-- Settles O57: of the ways each agent's step can go on, those that end in a failure. -/
theorem failureKindsByAgent : Obligations.FailureKindsByAgent := by
  intro s t k h hdone hres
  refine ⟨fun hp => ?_, fun hp => ?_⟩
  · obtain rfl | rfl | hrun := compressor_step_next hp h
    · cases hres; rfl
    · cases hres
    · exact nomatch hrun.symm.trans hdone
  · obtain rfl | rfl | ⟨rfl, hc⟩ | rfl | hrun := decompressor_step_next hp h
    · cases hres; exact .inl rfl
    · cases hres; exact .inr (.inl rfl)
    · cases hres; exact .inr (.inr ⟨rfl, hc⟩)
    · cases hres
    · exact nomatch hrun.symm.trans hdone

end Sys2Proof.Machine
end

section
/-!
Reset and the end of every operation (70_reset_and_hazards.md R250, R256): a running operation always has a next step, and each step
that does not end it leaves fewer bytes of IN after CUR.
-/

namespace Sys2Proof.Machine

/-- Settles O49: reset is written with these values (70_reset_and_hazards.md R250, 10_state.md R34). -/
theorem resetValues : Obligations.ResetValues := ⟨rfl, rfl, rfl, rfl⟩

/-- Settles O54: CUR is not beyond IN_LEN, and a record, an end or a failure is a next state. -/
theorem busyStepAnswersNext : Obligations.BusyStepAnswersNext := fun _ _ => busy_step_goes_on

/-- A step of a running operation ends it or leaves fewer bytes of IN (42_compressor.md R172, 43_decompressor.md R193). -/
theorem busy_step_ends_or_shrinks {s t : State} {a : Agent} (hp : s.phase = .busy a) (h : step s = .next t) :
    t.phase = .done ∨ (t.phase = .busy a ∧ t.inLen - t.cur < s.inLen - s.cur) := by
  obtain ⟨k, rfl⟩ | ⟨-, rfl⟩ | ⟨v, n, rfl, hn, hin, -⟩ := busy_step_next hp h
  · exact .inl rfl
  · exact .inl rfl
  · have hshrinks : s.inLen - (s.cur + n) < s.inLen - s.cur := by omega
    exact .inr ⟨hp, hshrinks⟩

/-- Settles O58, by induction on the bytes of IN left after CUR. -/
theorem everyOperationEnds : Obligations.EveryOperationEnds := by
  intro s a hi hp
  induction hm : s.inLen - s.cur using Nat.strong_induction_on generalizing s with
  | _ m ih =>
    obtain ⟨u, hstep⟩ := busy_step_goes_on hi hp
    obtain hdone | ⟨hbusy, hshrinks⟩ := busy_step_ends_or_shrinks hp hstep
    · exact ⟨1, u, by omega, run_succ_next 0 hstep, hdone⟩
    · obtain ⟨k, t, hk, hrun, hdone⟩ := ih _ (hm ▸ hshrinks) u (stepKeepsInv s u hi hstep) hbusy rfl
      exact ⟨k + 1, t, by omega, (run_succ_next k hstep).trans hrun, hdone⟩

end Sys2Proof.Machine
end
